-- ==== Sys2Proof/Word.lean ====
section
/-! DEFINITION. The machine's words and their plainest arithmetic (00_scope.md R5, R10, R11). -/

namespace Sys2Proof

/-- An 8-bit unsigned value: a general register, a timer, a memory byte, the immediate KK (R5, R21, R32, R35). -/
abbrev Byte := BitVec 8

/-- A 16-bit unsigned value: PC, I, a return address, an opcode word (R5, R24, R29, R30, R80). -/
abbrev Word := BitVec 16

/-- The 12-bit address immediate NNN (R82). -/
abbrev Addr12 := BitVec 12

/-- The number of a general register V0..VF, of a key 0x0..0xF, or the row count N: one nibble (R5, R82). -/
abbrev Nibble := Fin 16

/-- `u8(e)` is e mod 256 (R11). -/
def u8 (e : Nat) : Byte := BitVec.ofNat 8 e

/-- `u16(e)` is e mod 65536 (R11). -/
def u16 (e : Nat) : Word := BitVec.ofNat 16 e

/-- `zext_16` of an 8-bit or 12-bit value (R11). -/
def zext16 {n : Nat} (v : BitVec n) : Word := v.setWidth 16

end Sys2Proof
end

