-- ==== Sys2Proof/Syntax.lean ====
section
/-! DEFINITION. The 35 instructions, one constructor per row of the opcode table (30_encoding.md R86), in the table's order, with
the fields of R82 extracted. -/

namespace Sys2Proof

/-- A decoded instruction (R84, R86, R113): `x`, `y` name general registers, `kk` is the byte immediate, `nnn` the address
immediate, `n` the sprite's row count. -/
inductive Instr
  /-- Row 1, `CLS` 00E0 (R200). -/
  | cls
  /-- Row 2, `RET` 00EE (R144). -/
  | ret
  /-- Row 3, `SYS NNN` 0NNN (R141). -/
  | sys (nnn : Addr12)
  /-- Row 4, `JP NNN` 1NNN (R143). -/
  | jp (nnn : Addr12)
  /-- Row 5, `CALL NNN` 2NNN (R142). -/
  | call (nnn : Addr12)
  /-- Row 6, `SE Vx, KK` 3XKK (R151). -/
  | seVxKk (x : Nibble) (kk : Byte)
  /-- Row 7, `SNE Vx, KK` 4XKK (R152). -/
  | sneVxKk (x : Nibble) (kk : Byte)
  /-- Row 8, `SE Vx, Vy` 5XY_ (R153); the low nibble is not examined and not kept (log 8). -/
  | seVxVy (x y : Nibble)
  /-- Row 9, `LD Vx, KK` 6XKK (R171). -/
  | ldVxKk (x : Nibble) (kk : Byte)
  /-- Row 10, `ADD Vx, KK` 7XKK (R172). -/
  | addVxKk (x : Nibble) (kk : Byte)
  /-- Row 11, `LD Vx, Vy` 8XY0 (R173). -/
  | ldVxVy (x y : Nibble)
  /-- Row 12, `OR Vx, Vy` 8XY1 (R180). -/
  | orVxVy (x y : Nibble)
  /-- Row 13, `AND Vx, Vy` 8XY2 (R181). -/
  | andVxVy (x y : Nibble)
  /-- Row 14, `XOR Vx, Vy` 8XY3 (R182). -/
  | xorVxVy (x y : Nibble)
  /-- Row 15, `ADD Vx, Vy` 8XY4 (R183). -/
  | addVxVy (x y : Nibble)
  /-- Row 16, `SUB Vx, Vy` 8XY5 (R184). -/
  | subVxVy (x y : Nibble)
  /-- Row 17, `SHR Vx {, Vy}` 8XY6 (R185). -/
  | shrVxVy (x y : Nibble)
  /-- Row 18, `SUBN Vx, Vy` 8XY7 (R186). -/
  | subnVxVy (x y : Nibble)
  /-- Row 19, `SHL Vx {, Vy}` 8XYE (R188). -/
  | shlVxVy (x y : Nibble)
  /-- Row 20, `SNE Vx, Vy` 9XY_ (R154); the low nibble is not examined and not kept (log 8). -/
  | sneVxVy (x y : Nibble)
  /-- Row 21, `LD I, NNN` ANNN (R240). -/
  | ldI (nnn : Addr12)
  /-- Row 22, `JP V0, NNN` BNNN (R146). -/
  | jpV0 (nnn : Addr12)
  /-- Row 23, `RND Vx, KK` CXKK (R190). -/
  | rnd (x : Nibble) (kk : Byte)
  /-- Row 24, `DRW Vx, Vy, N` DXYN (R201). -/
  | drw (x y n : Nibble)
  /-- Row 25, `SKP Vx` EX9E (R220). -/
  | skp (x : Nibble)
  /-- Row 26, `SKNP Vx` EXA1 (R221). -/
  | sknp (x : Nibble)
  /-- Row 27, `LD Vx, DT` FX07 (R223). -/
  | ldVxDt (x : Nibble)
  /-- Row 28, `LD Vx, K` FX0A (R226). -/
  | ldVxK (x : Nibble)
  /-- Row 29, `LD DT, Vx` FX15 (R224). -/
  | ldDtVx (x : Nibble)
  /-- Row 30, `LD ST, Vx` FX18 (R225). -/
  | ldStVx (x : Nibble)
  /-- Row 31, `ADD I, Vx` FX1E (R241). -/
  | addIVx (x : Nibble)
  /-- Row 32, `LD F, Vx` FX29 (R242). -/
  | ldFVx (x : Nibble)
  /-- Row 33, `LD B, Vx` FX33 (R246). -/
  | ldBVx (x : Nibble)
  /-- Row 34, `LD [I], Vx` FX55 (R247). -/
  | ldMemVx (x : Nibble)
  /-- Row 35, `LD Vx, [I]` FX65 (R248). -/
  | ldVxMem (x : Nibble)
  deriving DecidableEq, Repr

end Sys2Proof
end

