-- ==== Sys2Proof/WellFormed.lean ====
section
/-! DEFINITION. Which terms of `Instr` stand for an instruction word. Every field value of every row is admitted (R83: "no field
value is reserved"), but for SYS: the words 0x00E0 and 0x00EE are CLS and RET, never SYS (R84, R141). -/

namespace Sys2Proof

/-- The NNN of a SYS: its word is neither 00E0 nor 00EE (R141). -/
def sysOperandOk (nnn : Addr12) : Bool := nnn != 0x0E0 && nnn != 0x0EE

/-- The well-formed instructions: exactly those some word decodes to (R84). -/
def Instr.wellFormed : Instr → Bool
  | .sys nnn => sysOperandOk nnn
  | .cls | .ret | .jp _ | .call _ | .seVxKk _ _ | .sneVxKk _ _ | .seVxVy _ _ | .ldVxKk _ _ | .addVxKk _ _ | .ldVxVy _ _
  | .orVxVy _ _ | .andVxVy _ _ | .xorVxVy _ _ | .addVxVy _ _ | .subVxVy _ _ | .shrVxVy _ _ | .subnVxVy _ _ | .shlVxVy _ _
  | .sneVxVy _ _ | .ldI _ | .jpV0 _ | .rnd _ _ | .drw _ _ _ | .skp _ | .sknp _ | .ldVxDt _ | .ldVxK _ | .ldDtVx _ | .ldStVx _
  | .addIVx _ | .ldFVx _ | .ldBVx _ | .ldMemVx _ | .ldVxMem _ => true

end Sys2Proof
end

