-- ==== Sys2Proof/Decode.lean ====
section
/-! DEFINITION. Decoding a word (30_encoding.md R82, R84), total, illegal words rejected by name (R87, R115); the encoder, written from
the formats of R81 and the patterns of R86; the opcode table of R86 itself; the host's numbering of an instruction's bits. -/

namespace Sys2Proof

/-! ### Fields (R10, R82) -/

/-- `w[15:12]`, the high nibble. -/
def opNibble (w : Word) : Nat := w.toNat / 4096

/-- `X = w[11:8]` (R82). -/
def fieldX (w : Word) : Nibble := ⟨w.toNat / 256 % 16, Nat.mod_lt _ (by decide)⟩

/-- `Y = w[7:4]` (R82). -/
def fieldY (w : Word) : Nibble := ⟨w.toNat / 16 % 16, Nat.mod_lt _ (by decide)⟩

/-- `N = w[3:0]` (R82). -/
def fieldN (w : Word) : Nibble := ⟨w.toNat % 16, Nat.mod_lt _ (by decide)⟩

/-- `KK = w[7:0]` (R82). -/
def fieldKK (w : Word) : Byte := BitVec.ofNat 8 (w.toNat % 256)

/-- `NNN = w[11:0]` (R82). -/
def fieldNNN (w : Word) : Addr12 := BitVec.ofNat 12 (w.toNat % 4096)

/-! ### The decoder (R84) -/

/-- Why bytes are no instruction. -/
inductive DecodeError
  /-- The word matches no row of the opcode table: `Illegal` of R84, R87. -/
  | illegal (w : Word)
  /-- Fewer than two bytes are left, so there is no word to decode (R80). -/
  | truncated
  deriving DecidableEq, Repr

/-- The group 0x0: 00E0 and 00EE are tested on the whole word before SYS (R84, D7). -/
def decode0 (w : Word) : Instr :=
  if w = 0x00E0 then .cls else if w = 0x00EE then .ret else .sys (fieldNNN w)

/-- The group 0x8, on the low nibble (R84). -/
def decode8 (w : Word) : Except DecodeError Instr :=
  match w.toNat % 16 with
  | 0x0 => .ok (.ldVxVy (fieldX w) (fieldY w))
  | 0x1 => .ok (.orVxVy (fieldX w) (fieldY w))
  | 0x2 => .ok (.andVxVy (fieldX w) (fieldY w))
  | 0x3 => .ok (.xorVxVy (fieldX w) (fieldY w))
  | 0x4 => .ok (.addVxVy (fieldX w) (fieldY w))
  | 0x5 => .ok (.subVxVy (fieldX w) (fieldY w))
  | 0x6 => .ok (.shrVxVy (fieldX w) (fieldY w))
  | 0x7 => .ok (.subnVxVy (fieldX w) (fieldY w))
  | 0xE => .ok (.shlVxVy (fieldX w) (fieldY w))
  | _ => .error (.illegal w)

/-- The group 0xE, on the low byte (R84). -/
def decodeE (w : Word) : Except DecodeError Instr :=
  match w.toNat % 256 with
  | 0x9E => .ok (.skp (fieldX w))
  | 0xA1 => .ok (.sknp (fieldX w))
  | _ => .error (.illegal w)

/-- The group 0xF, on the low byte (R84). -/
def decodeF (w : Word) : Except DecodeError Instr :=
  match w.toNat % 256 with
  | 0x07 => .ok (.ldVxDt (fieldX w))
  | 0x0A => .ok (.ldVxK (fieldX w))
  | 0x15 => .ok (.ldDtVx (fieldX w))
  | 0x18 => .ok (.ldStVx (fieldX w))
  | 0x1E => .ok (.addIVx (fieldX w))
  | 0x29 => .ok (.ldFVx (fieldX w))
  | 0x33 => .ok (.ldBVx (fieldX w))
  | 0x55 => .ok (.ldMemVx (fieldX w))
  | 0x65 => .ok (.ldVxMem (fieldX w))
  | _ => .error (.illegal w)

/-- `decode(w)` of R84: the case on the high nibble. The last case is 0xF, the one value below 16 that is left. -/
def decode (w : Word) : Except DecodeError Instr :=
  match opNibble w with
  | 0x0 => .ok (decode0 w)
  | 0x1 => .ok (.jp (fieldNNN w))
  | 0x2 => .ok (.call (fieldNNN w))
  | 0x3 => .ok (.seVxKk (fieldX w) (fieldKK w))
  | 0x4 => .ok (.sneVxKk (fieldX w) (fieldKK w))
  | 0x5 => .ok (.seVxVy (fieldX w) (fieldY w))
  | 0x6 => .ok (.ldVxKk (fieldX w) (fieldKK w))
  | 0x7 => .ok (.addVxKk (fieldX w) (fieldKK w))
  | 0x8 => decode8 w
  | 0x9 => .ok (.sneVxVy (fieldX w) (fieldY w))
  | 0xA => .ok (.ldI (fieldNNN w))
  | 0xB => .ok (.jpV0 (fieldNNN w))
  | 0xC => .ok (.rnd (fieldX w) (fieldKK w))
  | 0xD => .ok (.drw (fieldX w) (fieldY w) (fieldN w))
  | 0xE => decodeE w
  | _ => decodeF w

/-- Two bytes as a word, the byte at the lower address first: "big-endian" (R54). -/
def wordOfBytes (hi lo : Byte) : Word := u16 (hi.toNat * 256 + lo.toNat)

/-- The instruction at the head of a byte sequence, and the bytes after it (R54, R80); total on any bytes. -/
def decodeBytes : List Byte → Except DecodeError (Instr × List Byte)
  | hi :: lo :: rest => (decode (wordOfBytes hi lo)).map fun i => (i, rest)
  | [_] => .error .truncated
  | [] => .error .truncated

/-! ### The encoder (R81, R86) -/

/-- Format `NNN`. -/
def encNNN (op : Nat) (nnn : Addr12) : Word := u16 (op * 4096 + nnn.toNat)

/-- Format `XKK`. -/
def encXKK (op : Nat) (x : Nibble) (kk : Byte) : Word := u16 (op * 4096 + x.val * 256 + kk.toNat)

/-- Formats `XY` and `XYN`: the low nibble is the sub-opcode or N. -/
def encXYN (op : Nat) (x y : Nibble) (n : Nat) : Word := u16 (op * 4096 + x.val * 256 + y.val * 16 + n)

/-- Format `X`: the low byte is the sub-opcode. -/
def encX (op : Nat) (x : Nibble) (sub : Nat) : Word := u16 (op * 4096 + x.val * 256 + sub)

/-- The word of an instruction (R86); for 5XY_ and 9XY_ the canonical word, low nibble 0 (R153, R154). -/
def encode : Instr → Word
  | .cls => 0x00E0
  | .ret => 0x00EE
  | .sys nnn => encNNN 0x0 nnn
  | .jp nnn => encNNN 0x1 nnn
  | .call nnn => encNNN 0x2 nnn
  | .seVxKk x kk => encXKK 0x3 x kk
  | .sneVxKk x kk => encXKK 0x4 x kk
  | .seVxVy x y => encXYN 0x5 x y 0x0
  | .ldVxKk x kk => encXKK 0x6 x kk
  | .addVxKk x kk => encXKK 0x7 x kk
  | .ldVxVy x y => encXYN 0x8 x y 0x0
  | .orVxVy x y => encXYN 0x8 x y 0x1
  | .andVxVy x y => encXYN 0x8 x y 0x2
  | .xorVxVy x y => encXYN 0x8 x y 0x3
  | .addVxVy x y => encXYN 0x8 x y 0x4
  | .subVxVy x y => encXYN 0x8 x y 0x5
  | .shrVxVy x y => encXYN 0x8 x y 0x6
  | .subnVxVy x y => encXYN 0x8 x y 0x7
  | .shlVxVy x y => encXYN 0x8 x y 0xE
  | .sneVxVy x y => encXYN 0x9 x y 0x0
  | .ldI nnn => encNNN 0xA nnn
  | .jpV0 nnn => encNNN 0xB nnn
  | .rnd x kk => encXKK 0xC x kk
  | .drw x y n => encXYN 0xD x y n.val
  | .skp x => encX 0xE x 0x9E
  | .sknp x => encX 0xE x 0xA1
  | .ldVxDt x => encX 0xF x 0x07
  | .ldVxK x => encX 0xF x 0x0A
  | .ldDtVx x => encX 0xF x 0x15
  | .ldStVx x => encX 0xF x 0x18
  | .addIVx x => encX 0xF x 0x1E
  | .ldFVx x => encX 0xF x 0x29
  | .ldBVx x => encX 0xF x 0x33
  | .ldMemVx x => encX 0xF x 0x55
  | .ldVxMem x => encX 0xF x 0x65

/-- `w[15:8]`, the byte stored at the lower address (R54). -/
def highByte (w : Word) : Byte := BitVec.ofNat 8 (w.toNat / 256)

/-- `w[7:0]`, the byte stored at the higher address (R54). -/
def lowByte (w : Word) : Byte := BitVec.ofNat 8 (w.toNat % 256)

/-- A word as it lies in memory, the high byte first (R54, R89). -/
def wordBytes (w : Word) : List Byte := [highByte w, lowByte w]

/-! ### The opcode table (R86) -/

/-- A row of R86: its number, and the mask and match that say which words it holds. -/
structure OpRow where
  num : Nat
  mask : Word
  pattern : Word
  deriving DecidableEq, Repr

/-- A word is the row's instruction iff `w & mask = match` (R86). -/
def OpRow.holds (r : OpRow) (w : Word) : Bool := w &&& r.mask == r.pattern

/-- The rows of R86 but SYS, which "is taken only when neither 00E0 nor 00EE matches". -/
def opcodeRows : List OpRow :=
  [⟨1, 0xFFFF, 0x00E0⟩, ⟨2, 0xFFFF, 0x00EE⟩, ⟨4, 0xF000, 0x1000⟩, ⟨5, 0xF000, 0x2000⟩, ⟨6, 0xF000, 0x3000⟩,
   ⟨7, 0xF000, 0x4000⟩, ⟨8, 0xF000, 0x5000⟩, ⟨9, 0xF000, 0x6000⟩, ⟨10, 0xF000, 0x7000⟩, ⟨11, 0xF00F, 0x8000⟩] ++
  [⟨12, 0xF00F, 0x8001⟩, ⟨13, 0xF00F, 0x8002⟩, ⟨14, 0xF00F, 0x8003⟩, ⟨15, 0xF00F, 0x8004⟩, ⟨16, 0xF00F, 0x8005⟩,
   ⟨17, 0xF00F, 0x8006⟩, ⟨18, 0xF00F, 0x8007⟩, ⟨19, 0xF00F, 0x800E⟩, ⟨20, 0xF000, 0x9000⟩, ⟨21, 0xF000, 0xA000⟩] ++
  [⟨22, 0xF000, 0xB000⟩, ⟨23, 0xF000, 0xC000⟩, ⟨24, 0xF000, 0xD000⟩, ⟨25, 0xF0FF, 0xE09E⟩, ⟨26, 0xF0FF, 0xE0A1⟩,
   ⟨27, 0xF0FF, 0xF007⟩, ⟨28, 0xF0FF, 0xF00A⟩, ⟨29, 0xF0FF, 0xF015⟩, ⟨30, 0xF0FF, 0xF018⟩, ⟨31, 0xF0FF, 0xF01E⟩] ++
  [⟨32, 0xF0FF, 0xF029⟩, ⟨33, 0xF0FF, 0xF033⟩, ⟨34, 0xF0FF, 0xF055⟩, ⟨35, 0xF0FF, 0xF065⟩]

/-- The SYS row of R86. -/
def sysRow : OpRow := ⟨3, 0xF000, 0x0000⟩

/-- The row of R86 an instruction stands in. -/
def Instr.row : Instr → Nat
  | .cls => 1
  | .ret => 2
  | .sys _ => 3
  | .jp _ => 4
  | .call _ => 5
  | .seVxKk _ _ => 6
  | .sneVxKk _ _ => 7
  | .seVxVy _ _ => 8
  | .ldVxKk _ _ => 9
  | .addVxKk _ _ => 10
  | .ldVxVy _ _ => 11
  | .orVxVy _ _ => 12
  | .andVxVy _ _ => 13
  | .xorVxVy _ _ => 14
  | .addVxVy _ _ => 15
  | .subVxVy _ _ => 16
  | .shrVxVy _ _ => 17
  | .subnVxVy _ _ => 18
  | .shlVxVy _ _ => 19
  | .sneVxVy _ _ => 20
  | .ldI _ => 21
  | .jpV0 _ => 22
  | .rnd _ _ => 23
  | .drw _ _ _ => 24
  | .skp _ => 25
  | .sknp _ => 26
  | .ldVxDt _ => 27
  | .ldVxK _ => 28
  | .ldDtVx _ => 29
  | .ldStVx _ => 30
  | .addIVx _ => 31
  | .ldFVx _ => 32
  | .ldBVx _ => 33
  | .ldMemVx _ => 34
  | .ldVxMem _ => 35

/-- The number of the row a word matches, none for an illegal word (R86, R87). -/
def tableRow (w : Word) : Option Nat :=
  match opcodeRows.find? fun r => r.holds w with
  | some r => some r.num
  | none => if sysRow.holds w then some sysRow.num else none

/-! ### The host's numbering of an instruction's bits -/

/-- The word whose bits, numbered as spec/opcode_table.json numbers them (bit 0 the least significant bit of the one 16-bit word,
R10), are those of `w` below `nbits`, the bits above zero. -/
def tableWord (nbits w : Nat) : Word := BitVec.ofNat 16 (w % 2 ^ nbits)

/-- What the decoder reads from that word laid out as the hardware stores it. -/
def decodeTableWord (nbits w : Nat) : Option Instr :=
  match decodeBytes (wordBytes (tableWord nbits w)) with
  | .ok (i, _) => some i
  | .error _ => none

end Sys2Proof
end

