-- ==== Sys2Proof/Config.lean ====
section
/-! DEFINITION. The parameters a model of this hardware takes (00_scope.md R6, R7, R8) and the one free value, the external
random byte stream (R9, R190). The values this hardware fixes stand in Machine/Params.lean. -/

namespace Sys2Proof

/-- `Q_SHIFT_SRC` (R7): which register SHR and SHL shift. -/
inductive ShiftSource
  | vx
  | vy
  deriving DecidableEq, Repr

/-- `Q_MEM_I` (R7, R245): what FX55 and FX65 do to I. -/
inductive IndexUpdate
  | unchanged
  | increment
  deriving DecidableEq, Repr

/-- `Q_LOGIC_VF` (R7): whether OR, AND and XOR clear VF. -/
inductive LogicFlag
  | keep
  | reset
  deriving DecidableEq, Repr

/-- `P_SYS` (R8, R141): what SYS does. -/
inductive SysPolicy
  | nop
  | fault
  deriving DecidableEq, Repr

/-- `P_KEY_RANGE` (R8, R222): what SKP and SKNP do with a key number above 15. -/
inductive KeyRange
  | fault
  | mask
  deriving DecidableEq, Repr

/-- `P_FONT_DIGIT` (R8, R242): what LD F does with a digit above 15. -/
inductive FontDigit
  | fault
  | mask
  | raw
  deriving DecidableEq, Repr

/-- `P_RESERVED_WRITE` and `P_LOW_FETCH` (R8, R58, R111): an access below 0x200 faults or is allowed. -/
inductive LowAccess
  | fault
  | allow
  deriving DecidableEq, Repr

/-- The quirk and policy parameters of R6, R7 and R8, as one record of plain data. -/
structure Params where
  /-- `Q_SHIFT_SRC`. -/
  shiftSrc : ShiftSource
  /-- `Q_MEM_I`. -/
  memI : IndexUpdate
  /-- `Q_LOGIC_VF`. -/
  logicVf : LogicFlag
  /-- `P_SYS`. -/
  sys : SysPolicy
  /-- `P_KEY_RANGE`. -/
  keyRange : KeyRange
  /-- `P_FONT_DIGIT`. -/
  fontDigit : FontDigit
  /-- `P_RESERVED_WRITE`. -/
  reservedWrite : LowAccess
  /-- `P_LOW_FETCH`. -/
  lowFetch : LowAccess
  /-- `P_FONT_BASE`. -/
  fontBase : Nat
  deriving DecidableEq, Repr

/-- The one condition on the parameters: the 80 font bytes fit in the reserved region, `P_FONT_BASE + 80 <= 0x200` (D2). -/
abbrev Params.wf (p : Params) : Prop := p.fontBase + 80 ≤ 0x200

/-- FREE VALUE (log 4): the n-th byte of the external random stream. The spec gives it no algorithm and no distribution
(R9, R41, R190, D33), so it has no body: a claim proved of it holds for every byte the host may inject. -/
opaque Config.randByte : Nat → Byte

end Sys2Proof
end

