-- ==== Sys2Proof/Machine/Params.lean ====
section
/-! DEFINITION. The parameter values of this hardware (00_scope.md R6, R7, R8) and its font (10_state.md R34). -/

namespace Sys2Proof.Machine

/-- "This hardware takes the defaults" (R7), and the defaults of R6 and R8. -/
def hardware : Params where
  shiftSrc := .vx
  memI := .unchanged
  logicVf := .keep
  sys := .nop
  keyRange := .fault
  fontDigit := .fault
  reservedWrite := .fault
  lowFetch := .fault
  fontBase := 0x050

/-- `P_FONT`: 16 sprites of 5 bytes, digit d at offset 5 * d, top row first (R34). -/
def fontBytes : List Byte :=
  [0xF0, 0x90, 0x90, 0x90, 0xF0,  0x20, 0x60, 0x20, 0x20, 0x70,  0xF0, 0x10, 0xF0, 0x80, 0xF0,  0xF0, 0x10, 0xF0, 0x10, 0xF0] ++
  [0x90, 0x90, 0xF0, 0x10, 0x10,  0xF0, 0x80, 0xF0, 0x10, 0xF0,  0xF0, 0x80, 0xF0, 0x90, 0xF0,  0xF0, 0x10, 0x20, 0x40, 0x40] ++
  [0xF0, 0x90, 0xF0, 0x90, 0xF0,  0xF0, 0x90, 0xF0, 0x10, 0xF0,  0xF0, 0x90, 0xF0, 0x90, 0x90,  0xE0, 0x90, 0xE0, 0x90, 0xE0] ++
  [0xF0, 0x80, 0x80, 0x80, 0xF0,  0xE0, 0x90, 0x90, 0x90, 0xE0,  0xF0, 0x80, 0xF0, 0x80, 0xF0,  0xF0, 0x80, 0xF0, 0x80, 0x80]

end Sys2Proof.Machine
end

