-- ==== Sys2Proof/Machine/State.lean ====
section
/-! DEFINITION. The machine's state: the one record of 10_state.md R20, with two fields of the model's own (`params`, `draws`); the
errors of 60_exceptions.md R260, R261; the reasons an outcome other than a next state may carry; the reset state of R43. -/

namespace Sys2Proof.Machine

/-- `MEM` (R35, R50) as the list of the bytes that differ from the reset contents: addresses strictly rising, below 0x1000, no entry
equal to what an unlisted address reads as (log 3; `Memory.wf` says so). -/
abbrev Memory := List Host.Cell

/-- `DISP` (R36): 32 rows of 64 pixels, row-major, true = on. -/
abbrev Display := Vector (Vector Bool 64) 32

/-- The errors of the taxonomy: codes 1-6 are the source's (R260), 16-20 the spec's model faults (R261). `a` is the address of the
instruction, `w` its word, `addr` the lowest failing address (an unbounded natural, R57), `len` the ROM length, `v` the register
value. Raising one in a step sets `RUN` to `Faulted(e)` (R262), a next state of this model (log 1). -/
inductive Error
  /-- Code 1, raised by `load_program` only, never by a step (R62). -/
  | romTooLarge (len : Nat)
  /-- Code 2 (R115). -/
  | illegalOpcode (w a : Word)
  /-- Code 3 (R142). -/
  | stackOverflow (a : Word)
  /-- Code 4 (R144). -/
  | stackUnderflow (a : Word)
  /-- Code 5 (R111). -/
  | fetchOutOfBounds (a : Word)
  /-- Code 6 (R57, R59). -/
  | outOfBounds (addr : Nat)
  /-- Code 16, under `P_RESERVED_WRITE = FAULT` (R58). -/
  | reservedWrite (addr : Nat)
  /-- Code 17, under `P_LOW_FETCH = FAULT` (R111). -/
  | pcBelowProgram (a : Word)
  /-- Code 18, under `P_SYS = FAULT` (R141). -/
  | sysUnsupported (w a : Word)
  /-- Code 19, under `P_KEY_RANGE = FAULT` (R222). -/
  | keyOutOfRange (v : Byte) (a : Word)
  /-- Code 20, under `P_FONT_DIGIT = FAULT` (R242). -/
  | fontDigitOutOfRange (v : Byte) (a : Word)
  deriving DecidableEq, Repr

/-- `RUN` (R38, R40): the interpreter's state machine. -/
inductive RunState
  /-- The default: a step fetches, decodes and executes (R110). -/
  | running
  /-- Entered by FX0A only; `x` is the destination register (R117, R226). -/
  | waitingForKey (x : Nibble)
  /-- A step raised `e`; absorbing (R118, R263). -/
  | faulted (e : Error)
  deriving DecidableEq, Repr

/-- The state record of R20. -/
structure State where
  /-- `MEM` (R35). -/
  mem : Memory
  /-- `V[0..15]`, general registers; `v[15]` is VF (R21, R22). -/
  v : Vector Byte 16
  /-- `I` (R29). -/
  i : Word
  /-- `PC` (R24). -/
  pc : Word
  /-- `SP`, the number of return addresses held (R30). -/
  sp : Byte
  /-- `STACK[0..15]` (R30). -/
  stack : Vector Word 16
  /-- `DT` (R32). -/
  dt : Byte
  /-- `ST` (R32, R33). -/
  st : Byte
  /-- `DISP` (R36). -/
  disp : Display
  /-- `KEY[0..15]` (R37). -/
  key : Vector Bool 16
  /-- `RUN` (R40). -/
  run : RunState
  /-- The model's own: the parameters of R6-R8, constant (log 2). -/
  params : Params
  /-- The model's own: how many random bytes have been drawn (R190, log 4). -/
  draws : Nat
  deriving DecidableEq, Repr

/-- Why an outcome is a fault and not a next state. The errors of R260 and R261 are NOT here: their effect is given by the spec, so
they are next states (log 1). -/
inductive Fault
  /-- Raised by CALL and RET when SP is 17 or more and the stack slot they need does not exist. The spec says such an SP cannot be
  reached and gives no effect (R30, R38). Safe: no run from reset meets it, and the model stops (log 5). -/
  | noStackSlot (sp : Byte)
  deriving DecidableEq, Repr

/-- Why an instruction is refused. -/
inductive Refusal
  /-- Raised by `exec` for an instruction that has no meaning yet; none is left. Safe: the model stops. -/
  | notModelled (mnemonic : String)
  deriving DecidableEq, Repr

/-- What one step or one instruction answers. -/
abbrev Result := Host.Outcome State Fault Refusal

/-- The machine after construction (R43, R290). Memory lists nothing, since the reset contents are what an unlisted address reads as
(log 3). -/
def State.reset : State where
  mem := []
  v := Vector.replicate 16 0
  i := 0
  pc := 0x200
  sp := 0
  stack := Vector.replicate 16 0
  dt := 0
  st := 0
  disp := Vector.replicate 32 (Vector.replicate 64 false)
  key := Vector.replicate 16 false
  run := .running
  params := hardware
  draws := 0

end Sys2Proof.Machine
end

