-- ==== Sys2Proof/Machine/Memory.lean ====
section
/-! DEFINITION. The byte store `MEM` (20_memory.md R50, R57, R58) as plain data in one canonical form: reading a byte, writing a byte,
moving a run of bytes. These operations check nothing; the checks of R57-R59 stand in Machine/Ops.lean. -/

namespace Sys2Proof.Machine

/-- What an address that is not listed reads as: the reset contents of R43, the font `P_FONT` at `P_FONT_BASE` (R34, R63) and
`P_INIT_MEM`'s default 0x00 elsewhere (R8, R35, D4; log 3). -/
def unlistedByte (a : Nat) : Byte :=
  if hardware.fontBase ≤ a ∧ a < hardware.fontBase + 80 then fontBytes.getD (a - hardware.fontBase) 0 else 0

/-- `MEM[a]`. -/
def Memory.read : Memory → Nat → Byte
  | [], a => unlistedByte a
  | (b, w) :: m, a => if a = b then w else Memory.read m a

/-- List a byte, in its place. -/
def Memory.put : Memory → Nat → Byte → Memory
  | [], a, v => [(a, v)]
  | (b, w) :: m, a, v =>
    if a < b then (a, v) :: (b, w) :: m else if a = b then (a, v) :: m else (b, w) :: Memory.put m a v

/-- Unlist an address. -/
def Memory.unlist (m : Memory) (a : Nat) : Memory := m.filter fun c => c.1 != a

/-- `MEM[a] <- v`, keeping the canonical form: a value that the address reads as when it is not listed is not listed. -/
def Memory.write (m : Memory) (a : Nat) (v : Byte) : Memory :=
  if v = unlistedByte a then m.unlist a else m.put a v

/-- The canonical form: addresses strictly rising, inside 0x000..0xFFF (R50), no entry equal to what an unlisted address reads as. -/
abbrev Memory.wf (m : Memory) : Prop :=
  m.Pairwise (fun c d => c.1 < d.1) ∧ ∀ c ∈ m, c.1 ≤ 0xFFF ∧ c.2 ≠ unlistedByte c.1

/-- `MEM[start]`, ..., `MEM[start + n - 1]`, in increasing address order (R56). -/
def readBytes (m : Memory) (start n : Nat) : List Byte := (List.range n).map fun k => m.read (start + k)

/-- Write bytes from `start` on, in increasing address order (R56). -/
def writeBytes (m : Memory) (start : Nat) : List Byte → Memory
  | [] => m
  | b :: bs => writeBytes (m.write start b) (start + 1) bs

end Sys2Proof.Machine
end

