-- ==== Sys2Proof/Machine/Ops.lean ====
section
/-! DEFINITION. The named operations over the state: one read and one write per component, raising an error (60_exceptions.md R262), the
checked memory accesses (20_memory.md R57-R59), the fetch (40_cycle.md R111), the call stack's slots (10_state.md R30). -/

namespace Sys2Proof.Machine

/-! ### Components -/

/-- `V[r]` (R12). -/
def State.reg (s : State) (r : Nibble) : Byte := s.v[r]

/-- `V[r] <- b` (R12). No register is hardwired (R21). -/
def State.setReg (s : State) (r : Nibble) (b : Byte) : State := { s with v := s.v.set r b }

/-- `I <- w` (R12). -/
def State.setI (s : State) (w : Word) : State := { s with i := w }

/-- `PC <- w` (R12). -/
def State.setPc (s : State) (w : Word) : State := { s with pc := w }

/-- `SP <- n` (R12). -/
def State.setSp (s : State) (n : Byte) : State := { s with sp := n }

/-- `STACK[j]` (R12). -/
def State.slot (s : State) (j : Nibble) : Word := s.stack[j]

/-- `STACK[j] <- w` (R12). -/
def State.setSlot (s : State) (j : Nibble) (w : Word) : State := { s with stack := s.stack.set j w }

/-- `DT <- b` (R12). -/
def State.setDt (s : State) (b : Byte) : State := { s with dt := b }

/-- `ST <- b` (R12). -/
def State.setSt (s : State) (b : Byte) : State := { s with st := b }

/-- The display as a whole (R36). -/
def State.setDisp (s : State) (d : Display) : State := { s with disp := d }

/-- `KEY[k]`, true = pressed (R12, R37). -/
def State.pressed (s : State) (k : Nibble) : Bool := s.key[k]

/-- `KEY[k] <- p` (R121): the host's write, no instruction's (R37). -/
def State.writeKey (s : State) (k : Nibble) (p : Bool) : State := { s with key := s.key.set k p }

/-- `RUN <- r` (R12, R40). -/
def State.setRun (s : State) (r : RunState) : State := { s with run := r }

/-- The store as a whole. -/
def State.setMem (s : State) (m : Memory) : State := { s with mem := m }

/-- One more random byte has been drawn (R190). -/
def State.countDraw (s : State) : State := { s with draws := s.draws + 1 }

/-- `MEM[a]`, for an address that R57 has checked. -/
def State.byteAt (s : State) (a : Nat) : Byte := s.mem.read a

/-! ### The program counter -/

/-- The pre-increment `PC <- u16(a + 2)` (R112). -/
def advancePc (s : State) : State := s.setPc (s.pc + 2)

/-- The address `a` of the instruction being executed: execute is entered with `PC = a + 2` (R112, R140; log 9). -/
def instrAddr (s : State) : Word := s.pc - 2

/-- A skip whose condition is `c`: `PC <- PC + 2` when it holds (R150). -/
def skipIf (c : Bool) (s : State) : State := if c then s.setPc (s.pc + 2) else s

/-! ### Raising an error -/

/-- `raise E(info)` inside a step (R110, R262): `RUN <- Faulted(e)`, nothing else; the step's result `Err(e)` is read off RUN (R116,
log 1). There is no trap entry, vector or handler (R265). -/
def raiseError (e : Error) (s : State) : Result := .next (s.setRun (.faulted e))

/-- Go on with the value of a check or an access, or raise its error; nothing has been written yet (R13, R59). -/
def orRaise {α : Type} (r : Except Error α) (s : State) (k : α → Result) : Result :=
  match r with
  | .ok a => k a
  | .error e => raiseError e s

/-! ### Memory accesses -/

/-- The check of `MemRead(addr, 1)` (R57). -/
def readError (addr : Nat) : Option Error := if addr > 0xFFF then some (.outOfBounds addr) else none

/-- The checks of `MemWrite(addr, 1, v)`, in R58's order. -/
def writeError (p : Params) (addr : Nat) : Option Error :=
  if addr > 0xFFF then some (.outOfBounds addr)
  else if addr < 0x200 ∧ p.reservedWrite = .fault then some (.reservedWrite addr)
  else none

/-- The error of the lowest failing address among `start .. start + n - 1` (R59); addresses are unbounded naturals (R57). -/
def firstError (check : Nat → Option Error) : Nat → Nat → Option Error
  | _, 0 => none
  | start, n + 1 =>
    match check start with
    | some e => some e
    | none => firstError check (start + 1) n

/-- `MemRead` of `n` bytes from `start` on, every check made before the first read (R57, R59). -/
def readRange (start n : Nat) (s : State) : Except Error (List Byte) :=
  match firstError readError start n with
  | some e => .error e
  | none => .ok (readBytes s.mem start n)

/-- `MemWrite` of bytes from `start` on, every check made before the first write (R58, R59). -/
def writeRange (start : Nat) (bytes : List Byte) (s : State) : Except Error State :=
  match firstError (writeError s.params) start bytes.length with
  | some e => .error e
  | none => .ok (s.setMem (writeBytes s.mem start bytes))

/-! ### Fetch -/

/-- `fetch(a)` at `a = PC` (R111): two bytes, big-endian (R54), no alignment check (R55). -/
def fetch (s : State) : Except Error Word :=
  if s.pc.toNat + 1 > 0xFFF then .error (.fetchOutOfBounds s.pc)
  else if s.pc.toNat < 0x200 ∧ s.params.lowFetch = .fault then .error (.pcBelowProgram s.pc)
  else .ok (wordOfBytes (s.byteAt s.pc.toNat) (s.byteAt (s.pc.toNat + 1)))

/-! ### The call stack -/

/-- The slot with index `j`, none when there is no such slot: the stack has 16 (R30). -/
def stackSlot (j : Byte) : Option Nibble := if h : j.toNat < 16 then some ⟨j.toNat, h⟩ else none

/-- `STACK[SP] <- w; SP <- SP + 1` (R142), for the SP below 16 that its check has left; log 5 for the others. -/
def pushAddr (w : Word) (s : State) (k : State → Result) : Result :=
  match stackSlot s.sp with
  | some j => k ((s.setSlot j w).setSp (s.sp + 1))
  | none => .fault (.noStackSlot s.sp)

/-- `SP <- SP - 1; STACK[SP]` (R144), for the SP above 0 that its check has left; log 5 for SP above 16. -/
def popAddr (s : State) (k : Word → State → Result) : Result :=
  match stackSlot (s.sp - 1) with
  | some j => k (s.slot j) (s.setSp (s.sp - 1))
  | none => .fault (.noStackSlot s.sp)

end Sys2Proof.Machine
end

