-- ==== Sys2Proof/Machine/Operands.lean ====
section
/-! DEFINITION. The operand forms beyond a plain register or immediate: the shift source (42_alu.md R185, R188), a key number
(44_keypad_timers.md R222), a font digit's address (45_index_memory.md R242), the register run V0..Vx (R247, R248), decimal digits
(R246), the random byte (R190), and what becomes of I after a register dump or load (R245). -/

namespace Sys2Proof.Machine

/-- The register a shift reads: Vx, or Vy under `Q_SHIFT_SRC = VY` (R185, R188). -/
def shiftOperand (x y : Nibble) (s : State) : Byte :=
  match s.params.shiftSrc with
  | .vx => s.reg x
  | .vy => s.reg y

/-- `v & 0x0F` as a nibble. -/
def lowNibble (v : Byte) : Nibble := ⟨v.toNat % 16, Nat.mod_lt _ (by decide)⟩

/-- `key_index(v)` (R222). -/
def keyIndex (v : Byte) (s : State) : Except Error Nibble :=
  if v.toNat ≤ 15 then .ok (lowNibble v)
  else
    match s.params.keyRange with
    | .fault => .error (.keyOutOfRange v (instrAddr s))
    | .mask => .ok (lowNibble v)

/-- The digit LD F looks up (R242). -/
def fontDigit (d : Byte) (s : State) : Except Error Nat :=
  if d.toNat ≤ 15 then .ok d.toNat
  else
    match s.params.fontDigit with
    | .fault => .error (.fontDigitOutOfRange d (instrAddr s))
    | .mask => .ok (d.toNat % 16)
    | .raw => .ok d.toNat

/-- `P_FONT_BASE + 5 * d` (R242). -/
def fontAddress (d : Nat) (s : State) : Word := u16 (s.params.fontBase + 5 * d)

/-- The registers V0, ..., Vx in order (R247, R248). -/
def regsUpTo (x : Nibble) : List Nibble := (List.finRange 16).filter fun r => r ≤ x

/-- The bytes LD [I], Vx stores (R247). -/
def dumpBytes (x : Nibble) (s : State) : List Byte := (regsUpTo x).map s.reg

/-- `for r in 0 .. X: V[r] <- bytes[r]` (R248). -/
def loadRegs (s : State) : List Nibble → List Byte → State
  | r :: rs, b :: bs => loadRegs (s.setReg r b) rs bs
  | _, _ => s

/-- What a register dump or load of V0..Vx does to I at its end (R245). -/
def finishIndex (x : Nibble) (s : State) : State :=
  match s.params.memI with
  | .unchanged => s
  | .increment => s.setI (u16 (s.i.toNat + x.val + 1))

/-- The hundreds, tens and ones digits of a byte (R246). -/
def bcdDigits (v : Byte) : List Byte := [u8 (v.toNat / 100), u8 (v.toNat / 10 % 10), u8 (v.toNat % 10)]

/-- `draw_rand()` (R12, R190): the next byte of the external stream, a free value (log 4). -/
def drawRand (s : State) : Byte := Config.randByte s.draws

end Sys2Proof.Machine
end

