-- ==== Sys2Proof/Machine/Flags.lean ====
section
/-! DEFINITION. The flag VF (10_state.md R22, R28): every condition that sets it and the order of the result and flag writes
(42_alu.md R170, R174). -/

namespace Sys2Proof.Machine

/-- The register number of VF. -/
def vf : Nibble := 15

/-- A condition as the byte VF holds. -/
def flagByte (c : Bool) : Byte := if c then 1 else 0

/-- Carry of an addition: the exact sum exceeds 255 (R174, R183). -/
def carryFlag (a b : Byte) : Bool := decide (a.toNat + b.toNat > 255)

/-- No borrow of `a - b`: the minuend is greater than or equal to the subtrahend (R174, R184, R186). -/
def noBorrowFlag (a b : Byte) : Bool := decide (b.toNat ≤ a.toNat)

/-- The bit a right shift moves out, bit 0 (R185). -/
def shiftedOutRight (a : Byte) : Bool := a.getLsbD 0

/-- The bit a left shift moves out, bit 7 (R188). -/
def shiftedOutLeft (a : Byte) : Bool := a.getLsbD 7

/-- `V[F] <- f`. -/
def setFlag (f : Bool) (s : State) : State := s.setReg vf (flagByte f)

/-- `V[X] <- r`, then `V[F] <- f`: with X = F the flag is what VF holds (R170). -/
def writeWithFlag (x : Nibble) (r : Byte) (f : Bool) (s : State) : State := setFlag f (s.setReg x r)

/-- The result of OR, AND and XOR, then `V[F] <- 0` under `Q_LOGIC_VF = RESET` (R180-R182). -/
def writeLogic (x : Nibble) (r : Byte) (s : State) : State :=
  match s.params.logicVf with
  | .keep => s.setReg x r
  | .reset => (s.setReg x r).setReg vf 0

end Sys2Proof.Machine
end

