-- ==== Sys2Proof/Machine/Alu.lean ====
section
/-! DEFINITION. Register load, arithmetic, logic, shift and random (42_alu.md). None changes PC further or can fault (R170); operands
are read before anything is written (R13). -/

namespace Sys2Proof.Machine

/-- `LD Vx, KK` (R171). -/
def execLdVxKk (x : Nibble) (kk : Byte) (s : State) : Result := .next (s.setReg x kk)

/-- `ADD Vx, KK` (R172): wraps, no flag. -/
def execAddVxKk (x : Nibble) (kk : Byte) (s : State) : Result := .next (s.setReg x (u8 ((s.reg x).toNat + kk.toNat)))

/-- `LD Vx, Vy` (R173). -/
def execLdVxVy (x y : Nibble) (s : State) : Result := .next (s.setReg x (s.reg y))

/-- `OR Vx, Vy` (R180). -/
def execOrVxVy (x y : Nibble) (s : State) : Result := .next (writeLogic x (s.reg x ||| s.reg y) s)

/-- `AND Vx, Vy` (R181). -/
def execAndVxVy (x y : Nibble) (s : State) : Result := .next (writeLogic x (s.reg x &&& s.reg y) s)

/-- `XOR Vx, Vy` (R182). -/
def execXorVxVy (x y : Nibble) (s : State) : Result := .next (writeLogic x (s.reg x ^^^ s.reg y) s)

/-- `ADD Vx, Vy` (R183). -/
def execAddVxVy (x y : Nibble) (s : State) : Result :=
  .next (writeWithFlag x (u8 ((s.reg x).toNat + (s.reg y).toNat)) (carryFlag (s.reg x) (s.reg y)) s)

/-- `SUB Vx, Vy` (R184): `u8(V[X] - V[Y] + 256)`. -/
def execSubVxVy (x y : Nibble) (s : State) : Result :=
  .next (writeWithFlag x (u8 ((s.reg x).toNat + 256 - (s.reg y).toNat)) (noBorrowFlag (s.reg x) (s.reg y)) s)

/-- `SUBN Vx, Vy` (R186): `u8(V[Y] - V[X] + 256)`. -/
def execSubnVxVy (x y : Nibble) (s : State) : Result :=
  .next (writeWithFlag x (u8 ((s.reg y).toNat + 256 - (s.reg x).toNat)) (noBorrowFlag (s.reg y) (s.reg x)) s)

/-- `SHR Vx {, Vy}` (R185). -/
def execShrVxVy (x y : Nibble) (s : State) : Result :=
  .next (writeWithFlag x (shiftOperand x y s >>> 1) (shiftedOutRight (shiftOperand x y s)) s)

/-- `SHL Vx {, Vy}` (R188). -/
def execShlVxVy (x y : Nibble) (s : State) : Result :=
  .next (writeWithFlag x (shiftOperand x y s <<< 1) (shiftedOutLeft (shiftOperand x y s)) s)

/-- `RND Vx, KK` (R190): one byte is drawn, whatever KK is. -/
def execRnd (x : Nibble) (kk : Byte) (s : State) : Result := .next ((s.setReg x (drawRand s &&& kk)).countDraw)

end Sys2Proof.Machine
end

