-- ==== Sys2Proof/Machine/Sprite.lean ====
section
/-! DEFINITION. The display buffer's own operations (43_display.md R200, R202, R206): a pixel, clearing, drawing a sprite by XOR with
wraparound and collision. -/

namespace Sys2Proof.Machine

/-- `DISP[r][c]` (R12). -/
def Display.pixel (d : Display) (r : Fin 32) (c : Fin 64) : Bool := d[r][c]

/-- `DISP[r][c] <- b`. -/
def Display.setPixel (d : Display) (r : Fin 32) (c : Fin 64) (b : Bool) : Display := d.set r (d[r].set c b)

/-- `clear()`: every pixel false (R200). -/
def clearDisplay : Display := Vector.replicate 32 (Vector.replicate 64 false)

/-- The row `(y0 + row) mod 32` (R202). -/
def wrapRow (y0 row : Nat) : Fin 32 := ⟨(y0 + row) % 32, Nat.mod_lt _ (by decide)⟩

/-- The column `(x0 + col) mod 64` (R202). -/
def wrapCol (x0 col : Nat) : Fin 64 := ⟨(x0 + col) % 64, Nat.mod_lt _ (by decide)⟩

/-- The sprite bit of column `col`: column 0 is bit 7 (R206). -/
def spriteBit (b : Byte) (col : Nat) : Bool := b.getLsbD (7 - col)

/-- The display and the collision found so far. -/
abbrev Canvas := Display × Bool

/-- One sprite bit: XOR into its pixel, and a set pixel that becomes unset is a collision (R202). -/
def drawBit (x0 y0 row : Nat) (b : Byte) (cv : Canvas) (col : Nat) : Canvas :=
  if spriteBit b col then
    let r := wrapRow y0 row
    let c := wrapCol x0 col
    (Display.setPixel cv.1 r c (!Display.pixel cv.1 r c), cv.2 || Display.pixel cv.1 r c)
  else cv

/-- One sprite row: columns 0 to 7. -/
def drawRow (x0 y0 row : Nat) (b : Byte) (cv : Canvas) : Canvas := (List.range 8).foldl (drawBit x0 y0 row b) cv

/-- The sprite rows from number `row` on, top row first. -/
def drawRows (x0 y0 : Nat) : Nat → List Byte → Canvas → Canvas
  | _, [], cv => cv
  | row, b :: bs, cv => drawRows x0 y0 (row + 1) bs (drawRow x0 y0 row b cv)

/-- `draw_sprite(x0, y0, sprite) -> bool` (R202): the display after, and whether any pixel was erased. -/
def drawSprite (x0 y0 : Byte) (sprite : List Byte) (d : Display) : Canvas := drawRows x0.toNat y0.toNat 0 sprite (d, false)

end Sys2Proof.Machine
end

