-- ==== Sys2Proof/Machine/Draw.lean ====
section
/-! DEFINITION. The display instructions (43_display.md). -/

namespace Sys2Proof.Machine

/-- `CLS` (R200). -/
def execCls (s : State) : Result := .next (s.setDisp clearDisplay)

/-- `DRW Vx, Vy, N` (R201): the N bytes at I are checked and read before any pixel changes, Vx and Vy before VF is written; N = 0
reads nothing and clears VF (R205). -/
def execDrw (x y n : Nibble) (s : State) : Result :=
  orRaise (readRange s.i.toNat n.val s) s fun sprite =>
    .next (setFlag (drawSprite (s.reg x) (s.reg y) sprite s.disp).2
      (s.setDisp (drawSprite (s.reg x) (s.reg y) sprite s.disp).1))

end Sys2Proof.Machine
end

