-- ==== Sys2Proof/Machine/Flow.lean ====
section
/-! DEFINITION. Control flow (41_flow.md). Every meaning is entered with `PC = a + 2` (R140). -/

namespace Sys2Proof.Machine

/-- `SYS NNN` (R141): no effect, or `SysUnsupported(w, a)` under `P_SYS = FAULT`; its word w is NNN itself (0NNN). -/
def execSys (nnn : Addr12) (s : State) : Result :=
  match s.params.sys with
  | .nop => .next s
  | .fault => raiseError (.sysUnsupported (zext16 nnn) (instrAddr s)) s

/-- `CALL NNN` (R142). -/
def execCall (nnn : Addr12) (s : State) : Result :=
  if s.sp = 16 then raiseError (.stackOverflow (instrAddr s)) s
  else pushAddr s.pc s fun t => .next (t.setPc (zext16 nnn))

/-- `JP NNN` (R143). -/
def execJp (nnn : Addr12) (s : State) : Result := .next (s.setPc (zext16 nnn))

/-- `RET` (R144). -/
def execRet (s : State) : Result :=
  if s.sp = 0 then raiseError (.stackUnderflow (instrAddr s)) s
  else popAddr s fun w t => .next (t.setPc w)

/-- `JP V0, NNN` (R146): the 16-bit sum, no 12-bit mask. -/
def execJpV0 (nnn : Addr12) (s : State) : Result := .next (s.setPc (zext16 nnn + zext16 (s.reg 0)))

/-- `SE Vx, KK` (R151). -/
def execSeVxKk (x : Nibble) (kk : Byte) (s : State) : Result := .next (skipIf (s.reg x == kk) s)

/-- `SNE Vx, KK` (R152). -/
def execSneVxKk (x : Nibble) (kk : Byte) (s : State) : Result := .next (skipIf (s.reg x != kk) s)

/-- `SE Vx, Vy` (R153). -/
def execSeVxVy (x y : Nibble) (s : State) : Result := .next (skipIf (s.reg x == s.reg y) s)

/-- `SNE Vx, Vy` (R154). -/
def execSneVxVy (x y : Nibble) (s : State) : Result := .next (skipIf (s.reg x != s.reg y) s)

end Sys2Proof.Machine
end

