-- ==== Sys2Proof/Machine/IndexMemory.lean ====
section
/-! DEFINITION. The index register and memory instructions (45_index_memory.md). -/

namespace Sys2Proof.Machine

/-- `LD I, NNN` (R240). -/
def execLdI (nnn : Addr12) (s : State) : Result := .next (s.setI (zext16 nnn))

/-- `ADD I, Vx` (R241): wraps at 16 bits, no flag. -/
def execAddIVx (x : Nibble) (s : State) : Result := .next (s.setI (u16 (s.i.toNat + (s.reg x).toNat)))

/-- `LD F, Vx` (R242). -/
def execLdFVx (x : Nibble) (s : State) : Result :=
  orRaise (fontDigit (s.reg x) s) s fun d => .next (s.setI (fontAddress d s))

/-- `LD B, Vx` (R246): the three decimal digits at I, I+1, I+2; I unchanged under both values of `Q_MEM_I` (R245). -/
def execLdBVx (x : Nibble) (s : State) : Result :=
  orRaise (writeRange s.i.toNat (bcdDigits (s.reg x)) s) s fun t => .next t

/-- `LD [I], Vx` (R247). -/
def execLdMemVx (x : Nibble) (s : State) : Result :=
  orRaise (writeRange s.i.toNat (dumpBytes x s) s) s fun t => .next (finishIndex x t)

/-- `LD Vx, [I]` (R248): X + 1 bytes, every check before the first register write. -/
def execLdVxMem (x : Nibble) (s : State) : Result :=
  orRaise (readRange s.i.toNat (x.val + 1) s) s fun bytes => .next (finishIndex x (loadRegs s (regsUpTo x) bytes))

end Sys2Proof.Machine
end

