-- ==== Sys2Proof/Machine/KeypadTimers.lean ====
section
/-! DEFINITION. The keypad and timer instructions (44_keypad_timers.md), and the key poll of 40_cycle.md R117 that completes LD Vx, K. -/

namespace Sys2Proof.Machine

/-- `SKP Vx` (R220). -/
def execSkp (x : Nibble) (s : State) : Result :=
  orRaise (keyIndex (s.reg x) s) s fun k => .next (skipIf (s.pressed k) s)

/-- `SKNP Vx` (R221). -/
def execSknp (x : Nibble) (s : State) : Result :=
  orRaise (keyIndex (s.reg x) s) s fun k => .next (skipIf (!s.pressed k) s)

/-- `LD Vx, DT` (R223). -/
def execLdVxDt (x : Nibble) (s : State) : Result := .next (s.setReg x s.dt)

/-- `LD DT, Vx` (R224). -/
def execLdDtVx (x : Nibble) (s : State) : Result := .next (s.setDt (s.reg x))

/-- `LD ST, Vx` (R225). -/
def execLdStVx (x : Nibble) (s : State) : Result := .next (s.setSt (s.reg x))

/-- `LD Vx, K` (R226): `RUN <- WaitingForKey(X)` and PC held at this instruction; a later poll completes it. -/
def execLdVxK (x : Nibble) (s : State) : Result := .next ((s.setRun (.waitingForKey x)).setPc (instrAddr s))

/-- The least pressed key, none when no key is pressed (R117). -/
def leastPressed (s : State) : Option Nibble := (List.finRange 16).find? fun k => s.pressed k

/-- `u8` of a key's number, the byte a completed wait stores (R117). -/
def keyByte (k : Nibble) : Byte := u8 k.val

/-- `poll(x)` (R117). -/
def poll (x : Nibble) (s : State) : State :=
  match leastPressed s with
  | some k => ((s.setReg x (keyByte k)).setPc (s.pc + 2)).setRun .running
  | none => s

end Sys2Proof.Machine
end

