-- ==== Sys2Proof/Machine/Cycle.lean ====
section
/-! DEFINITION. The three cases of `step()` (40_cycle.md R110): the fetch-decode-execute cycle, the key poll, the faulted machine; and
the result of a step (R116). -/

namespace Sys2Proof.Machine

/-- One fetch-decode-execute cycle in state Running (R110-R115): a fetch fault leaves PC at a, every later one at a + 2 (R262). -/
def runCycle (s : State) : Result :=
  orRaise (fetch s) s fun w =>
    match decode w with
    | .ok i => exec i (advancePc s)
    | .error _ => raiseError (.illegalOpcode w s.pc) (advancePc s)

/-- A step in state WaitingForKey(x): no fetch, one poll, never a fault (R117). -/
def waitCycle (x : Nibble) (s : State) : Result := .next (poll x s)

/-- A step in state Faulted(e): it returns `Err(e)` and changes nothing (R118, R263); that RUN still is `Faulted(e)` is the result
(log 1). -/
def faultedCycle (_ : Error) (s : State) : Result := .next s

/-- The result of the step that led to this state (R116): `some e` for `Err(e)`, `none` for `Ok`. A step raises e exactly by setting
`RUN` to `Faulted(e)` (R110, R262). -/
def stepError (s : State) : Option Error :=
  match s.run with
  | .faulted e => some e
  | .running => none
  | .waitingForKey _ => none

/-- The numbers of R260 and R261. -/
def errorCode : Error → Nat
  | .romTooLarge _ => 1
  | .illegalOpcode _ _ => 2
  | .stackOverflow _ => 3
  | .stackUnderflow _ => 4
  | .fetchOutOfBounds _ => 5
  | .outOfBounds _ => 6
  | .reservedWrite _ => 16
  | .pcBelowProgram _ => 17
  | .sysUnsupported _ _ => 18
  | .keyOutOfRange _ _ => 19
  | .fontDigitOutOfRange _ _ => 20

/-- Where the next fetch reads: PC where a fetch succeeds there (R111), else the entry point 0x200 (R52). -/
def fetchAddr (s : State) : Word :=
  match fetch s with
  | .ok _ => s.pc
  | .error _ => 0x200

/-- A word stored where `fetchAddr` says, high byte first (R54), with RUN Running and PC there, so that the next step fetches it. -/
def placeWord (s : State) (w : Word) : State :=
  ((s.setMem (writeBytes s.mem (fetchAddr s).toNat (wordBytes w))).setPc (fetchAddr s)).setRun .running

end Sys2Proof.Machine
end

