-- ==== Sys2Proof/Machine/Step.lean ====
section
/-! DEFINITION. `step()` (40_cycle.md R110), and the host's placing of an instruction where the next step fetches it. -/

namespace Sys2Proof.Machine

/-- `step()`: "one fetch-decode-execute cycle when RUN = Running, one key poll when RUN = WaitingForKey(x), and nothing when
RUN = Faulted(e)" (R110). -/
def step (s : State) : Host.Outcome State Fault Refusal :=
  match s.run with
  | .faulted e => faultedCycle e s
  | .waitingForKey x => waitCycle x s
  | .running => runCycle s

/-- `s` with the instruction whose bits are `w` (numbered as the table numbers them) placed where the next step fetches (log 6). -/
def State.withFetchWord (s : State) (nbits w : Nat) : State := placeWord s (tableWord nbits w)

end Sys2Proof.Machine
end

