-- ==== Sys2Proof/Machine/HostOps.lean ====
section
/-! DEFINITION. The host interface (60_exceptions.md R274): construction and loading (70_reset_and_hazards.md R290, R292; 20_memory.md
R62, R63), `tick_timers`, `set_key` (40_cycle.md R120, R121), the read ports (R122), and the free schedule of these calls, finite or infinite (R123). -/

namespace Sys2Proof.Machine

/-! ### Construction and loading -/

/-- `load_font(data)` (R63): the bytes at `P_FONT_BASE` on; the checks of R58 do not apply to it. -/
def loadFont (p : Params) (font : List Byte) (m : Memory) : Memory := writeBytes m p.fontBase font

/-- The store whose byte at each address 0x000..0xFFF is `P_INIT_MEM` of it (R8, R35). -/
def initialMemory (init : Nat → Byte) : Memory := writeBytes [] 0 ((List.range 0x1000).map init)

/-- construct (R290): the reset values of R43 with the parameters, `P_FONT` and `P_INIT_MEM` given, then `load_font`. -/
def construct (p : Params) (font : List Byte) (init : Nat → Byte) : State :=
  { State.reset with mem := loadFont p font (initialMemory init), params := p }

/-- `load_program(bytes)` (R62): all or nothing, at 0x200. -/
def loadProgram (rom : List Byte) (s : State) : Except Error State :=
  if rom.length > 3584 then .error (.romTooLarge rom.length) else .ok (s.setMem (writeBytes s.mem 0x200 rom))

/-- The boot sequence (R292): construct, then the one load; the host's calls come after it (D31). -/
def boot (p : Params) (font : List Byte) (init : Nat → Byte) (rom : List Byte) : Except Error State :=
  loadProgram rom (construct p font init)

/-! ### Calls between steps -/

/-- One countdown: "decrements by 1 if > 0" (R120). -/
def countDown (b : Byte) : Byte := if b.toNat > 0 then u8 (b.toNat - 1) else b

/-- `tick_timers()` (R120), in every RUN state (D35). -/
def tickTimers (s : State) : State := (s.setDt (countDown s.dt)).setSt (countDown s.st)

/-- `set_key(key, pressed)` (R121). -/
def setKey (k : Nibble) (p : Bool) (s : State) : State := s.writeKey k p

/-- `pixels()` (R122). -/
def pixels (s : State) : Display := s.disp

/-- The sound output: the tone is on iff ST > 0 (R33). -/
def soundOn (s : State) : Bool := decide (s.st.toNat > 0)

/-! ### The read ports (R122) -/

/-- The observation ports, "all read-only and side-effect free". -/
inductive ReadPort
  | pixels
  | soundTimer
  | soundOn
  | stepResult
  | wholeState
  deriving DecidableEq, Repr

/-- What a port returns. -/
inductive Observed
  | display (d : Display)
  | byte (b : Byte)
  | level (b : Bool)
  | result (e : Option Error)
  | state (s : State)
  deriving DecidableEq, Repr

/-- Reading a port: `DISP`, `ST`, `ST > 0`, the result of the last step (R116), "the whole state" (R122). -/
def readPort : ReadPort → State → Observed
  | .pixels, s => .display (pixels s)
  | .soundTimer, s => .byte s.st
  | .soundOn, s => .level (soundOn s)
  | .stepResult, s => .result (stepError s)
  | .wholeState, s => .state s

/-! ### The schedule (R123) -/

/-- The calls after boot (R274): `step`, `tick_timers`, `set_key(k, p)` "and the reads of rule R122"; there is no second
`load_program` (D31). -/
inductive HostOp
  | step
  | tickTimers
  | setKey (k : Nibble) (p : Bool)
  | read (port : ReadPort)
  deriving DecidableEq, Repr

/-- One call, one atomic transition (R3, D1); a read changes nothing, and what it returns is `readPort` of the state. -/
def applyOp : HostOp → State → Result
  | .step, s => step s
  | .tickTimers, s => .next (tickTimers s)
  | .setKey k p, s => .next (setKey k p s)
  | .read _, s => .next s

/-- Go on from a next state; a stop stays a stop. -/
def andThen (r : Result) (k : State → Result) : Result :=
  match r with
  | .next t => k t
  | .fault e => .fault e
  | .refused e => .refused e

/-- A finite sequence of calls, in any order (R123). -/
def runOps : List HostOp → State → Result
  | [], s => .next s
  | op :: ops, s => andThen (applyOp op s) (runOps ops)

/-- An infinite sequence of calls, in any order (R123): call number n, for every n. -/
abbrev Schedule := Nat → HostOp

/-- Where an infinite sequence of calls has come after its first n calls. -/
def runSchedule (f : Schedule) (s : State) : Nat → Result
  | 0 => .next s
  | n + 1 => andThen (runSchedule f s n) (applyOp (f n))

end Sys2Proof.Machine
end

