-- ==== Sys2Proof/Safety.lean ====
section
/-! DEFINITION. The terms claims use: the end of a run (70_reset_and_hazards.md R302), infinite runs, the invariant of every reachable state, which
component of the state is as before, where a fetch succeeds, what a sprite covers. -/

namespace Sys2Proof.Machine

/-! ### The end of a run (R302) -/

/-- "halted at PC": RUN = Running and the word at PC is `1NNN` with `NNN = PC`. -/
def haltedAtPc (s : State) : Prop :=
  s.run = .running ∧ ∃ w nnn, fetch s = .ok w ∧ decode w = .ok (.jp nnn) ∧ zext16 nnn = s.pc

/-- "faulted": RUN = Faulted(e). -/
def isFaulted (s : State) : Prop := ∃ e, s.run = .faulted e

/-- The end of a run is either; only the first is a good end. -/
def runEnded (s : State) : Prop := haltedAtPc s ∨ isFaulted s

/-- A claim's good end: "(a) with no fault". -/
def goodEnd (s : State) : Prop := haltedAtPc s

/-- Under this schedule of the host's calls, the run from `s` reaches its end first after `n` calls, in `t`. The calls between the
steps are the host's (R292 step 3, R123); the schedule of steps alone is `fun _ => .step`. -/
def endsAfter (f : Schedule) (n : Nat) (s t : State) : Prop :=
  runSchedule f s n = .next t ∧ runEnded t ∧ ∀ m, m < n → ∀ u, runSchedule f s m = .next u → ¬ runEnded u

/-- The end of a run "from the boot of rule R292". -/
def bootEndsAfter (p : Params) (font : List Byte) (init : Nat → Byte) (rom : List Byte) (f : Schedule) (n : Nat) (t : State) : Prop :=
  ∃ s, boot p font init rom = .ok s ∧ endsAfter f n s t

/-! ### Infinite runs (R123, R296, R297) -/

/-- The states an infinite schedule passes through: call number n leads from state n to state n + 1. -/
def infiniteRun (f : Schedule) (run : Nat → State) : Prop := ∀ n, applyOp (f n) (run n) = .next (run (n + 1))

/-- "the host keeps stepping" (R296): `step` is called infinitely often. -/
def stepsForever (f : Schedule) : Prop := ∀ n, ∃ m, n ≤ m ∧ f m = .step

/-- "`tick_timers` is called infinitely often" (R297). -/
def ticksForever (f : Schedule) : Prop := ∀ n, ∃ m, n ≤ m ∧ f m = .tickTimers

/-! ### Words and fetches -/

/-- The number, as a 16-bit word, decodes to the instruction. -/
def decodesTo (n : Nat) (i : Instr) : Prop := decode (u16 n) = .ok i

/-- A fetch at this address succeeds under these parameters. -/
abbrev fetchable (p : Params) (a : Nat) : Prop := a + 1 ≤ 0xFFF ∧ (0x200 ≤ a ∨ p.lowFetch = .allow)

/-! ### The invariant -/

/-- What every reachable state satisfies. -/
structure Inv (s : State) : Prop where
  /-- Memory keeps its canonical form inside 0x000..0xFFF (R50, log 3). -/
  mem_wf : s.mem.wf
  /-- "SP values 17..255 cannot be reached" (R38). -/
  sp_le : s.sp.toNat ≤ 16
  /-- A held return address "was PC + 2 of a CALL, so at most 0x1000" (R144). -/
  slot_le : ∀ j : Nibble, j.val < s.sp.toNat → (s.slot j).toNat ≤ 0x1000
  /-- "The largest value any rule can produce" for a PC (R26). -/
  pc_le : s.pc.toNat ≤ 0x10FE
  /-- "PC during the wait holds the address of the FX0A word itself" (R117), so a fetch succeeded there. -/
  wait_pc : ∀ x, s.run = .waitingForKey x → fetchable s.params s.pc.toNat
  /-- `RomTooLarge` is raised by `load_program` only, "not `step`" (R260). -/
  fault_of_step : ∀ e, s.run = .faulted e → errorCode e ≠ 1
  /-- The font stays in the reserved region (D2). -/
  params_wf : s.params.wf

/-! ### Components and frames -/

/-- A component of the machine's state (R20, and the two fields of the model's own). -/
inductive Component
  | memory
  | regs
  | index
  | pc
  | stack
  | delay
  | sound
  | display
  | keys
  | run
  | params
  | draws
  deriving DecidableEq, Repr

/-- A component reads as before: memory through every byte, registers through every register, and so on. -/
def Component.same : Component → State → State → Prop
  | .memory, s, t => ∀ a, t.byteAt a = s.byteAt a
  | .regs, s, t => ∀ r, t.reg r = s.reg r
  | .index, s, t => t.i = s.i
  | .pc, s, t => t.pc = s.pc
  | .stack, s, t => t.sp = s.sp ∧ ∀ j, t.slot j = s.slot j
  | .delay, s, t => t.dt = s.dt
  | .sound, s, t => t.st = s.st
  | .display, s, t => ∀ r c, Display.pixel t.disp r c = Display.pixel s.disp r c
  | .keys, s, t => ∀ k, t.pressed k = s.pressed k
  | .run, s, t => t.run = s.run
  | .params, s, t => t.params = s.params
  | .draws, s, t => t.draws = s.draws

/-- Every component but those listed is as before. -/
def unchangedBut (cs : List Component) (s t : State) : Prop := ∀ c, c ∉ cs → c.same s t

/-- The machine took the error `e` and nothing else happened: RUN is `Faulted(e)`, every other component is as before (R262). -/
def tookError (e : Error) (s t : State) : Prop := t.run = .faulted e ∧ unchangedBut [.run] s t

/-- The registers an instruction may write, with `p` the parameters: the "w" entries of R23's table. -/
def writtenRegs (p : Params) : Instr → List Nibble
  | .ldVxKk x _ | .addVxKk x _ | .ldVxVy x _ | .rnd x _ | .ldVxDt x => [x]
  | .orVxVy x _ | .andVxVy x _ | .xorVxVy x _ => if p.logicVf = .reset then [x, 15] else [x]
  | .addVxVy x _ | .subVxVy x _ | .subnVxVy x _ | .shrVxVy x _ | .shlVxVy x _ => [x, 15]
  | .drw _ _ _ => [15]
  | .ldVxMem x => (List.finRange 16).filter fun r => r ≤ x
  | .cls | .ret | .sys _ | .jp _ | .call _ | .seVxKk _ _ | .sneVxKk _ _ | .seVxVy _ _ | .sneVxVy _ _ | .ldI _ | .jpV0 _
  | .skp _ | .sknp _ | .ldVxK _ | .ldDtVx _ | .ldStVx _ | .addIVx _ | .ldFVx _ | .ldBVx _ | .ldMemVx _ => []

/-! ### Sprites (R202, R204, R206) -/

/-- The sprite of `n` rows at I, drawn at `(x0, y0)`, has a 1 bit on the pixel in row `r`, column `c`: every pixel wraps. -/
def spriteCovers (s : State) (x0 y0 n : Nat) (r : Fin 32) (c : Fin 64) : Prop :=
  ∃ row col, row < n ∧ col < 8 ∧ r.val = (y0 + row) % 32 ∧ c.val = (x0 + col) % 64 ∧
    (s.byteAt (s.i.toNat + row)).getLsbD (7 - col) = true

end Sys2Proof.Machine
end

