-- ==== Sys2Proof/Certificates/Slice0/Obligations.lean ====
section
/-! DEFINITION. The statements for the provers, in the order of OBLIGATIONS.json. In a statement about `exec`, `a` is the address of the
instruction, so the state it is entered with has `PC = a + 2` (R140). A state after an error is a next state (log 1). -/

open Sys2Proof Sys2Proof.Machine

/-! ### Reset, construction, loading -/

/-- R43, R34: every component of the reset state, the 80 font bytes written out digit by digit. The zero stack slots, the released keys
and the zero bytes outside the font are the spec's decisions D4, D5; `draws = 0` and the `params` field are the model's (logs 2, 4). -/
def Obligations.ResetState : Prop :=
  State.reset.run = .running ∧ State.reset.pc = 0x200 ∧ State.reset.i = 0 ∧ State.reset.sp = 0 ∧
  State.reset.dt = 0 ∧ State.reset.st = 0 ∧ (∀ r, State.reset.reg r = 0) ∧ (∀ j, State.reset.slot j = 0) ∧
  (∀ r c, Display.pixel State.reset.disp r c = false) ∧ (∀ k, State.reset.pressed k = false) ∧
  (∀ d k : Nat, k < 5 → ∀ h : d < 16, (State.reset.byteAt (0x050 + 5 * d + k)).toNat =
    ([0xF0909090F0, 0x2060202070, 0xF010F080F0, 0xF010F010F0, 0x9090F01010, 0xF080F010F0, 0xF080F090F0, 0xF010204040,
      0xF090F090F0, 0xF090F010F0, 0xF090F09090, 0xE090E090E0, 0xF0808080F0, 0xE0909090E0, 0xF080F080F0, 0xF080F08080][d]'h)
      / 256 ^ (4 - k) % 256) ∧
  (∀ a, a < 0x050 ∨ (0x0A0 ≤ a ∧ a ≤ 0xFFF) → State.reset.byteAt a = 0)

/-- R290, R43, R63: for every parameter record that keeps the font in the reserved region, every 80 font bytes and every `P_INIT_MEM`,
construction leaves the font at `P_FONT_BASE`, `P_INIT_MEM` elsewhere, and every other component as in the reset state; with this
hardware's parameters it IS the reset state. -/
def Obligations.ConstructedState : Prop :=
  (∀ (p : Params) (font : List Byte) (init : Nat → Byte), p.wf → font.length = 80 →
    (construct p font init).params = p ∧ unchangedBut [.memory, .params] State.reset (construct p font init) ∧
    (∀ k, ∀ h : k < font.length, (construct p font init).byteAt (p.fontBase + k) = font[k]) ∧
    (∀ a, a ≤ 0xFFF → a < p.fontBase ∨ p.fontBase + 80 ≤ a → (construct p font init).byteAt a = init a)) ∧
  construct hardware fontBytes (fun _ => 0) = State.reset

/-- R62: a ROM longer than 3584 bytes is refused with its length and nothing is loaded; any other lies at 0x200 on and nothing else
changes. -/
def Obligations.LoadProgramAllOrNothing : Prop :=
  ∀ (rom : List Byte) (s : State),
    (rom.length > 3584 → loadProgram rom s = .error (.romTooLarge rom.length)) ∧
    (rom.length ≤ 3584 → ∃ t, loadProgram rom s = .ok t ∧
      (∀ k, ∀ h : k < rom.length, t.byteAt (0x200 + k) = rom[k]) ∧
      (∀ a, a < 0x200 ∨ 0x200 + rom.length ≤ a → t.byteAt a = s.byteAt a) ∧ unchangedBut [.memory] s t)

/-- R292: after a boot that loads at least one word the machine is Running at 0x200 and its first fetch reads the ROM's first two bytes,
whatever the initial memory was. -/
def Obligations.BootFetchesFirstRomWord : Prop :=
  ∀ (p : Params) (font : List Byte) (init : Nat → Byte) (hi lo : Byte) (rom : List Byte), rom.length + 2 ≤ 3584 →
    ∃ t w, boot p font init (hi :: lo :: rom) = .ok t ∧ t.run = .running ∧ t.pc = 0x200 ∧ fetch t = .ok w ∧
      w.toNat = hi.toNat * 256 + lo.toNat

/-! ### Control flow -/

/-- R143, with its corner case: a jump to its own address repeats, and every step changes no state. -/
def Obligations.JumpSetsPc : Prop :=
  ∀ (nnn : Addr12) (s : State), decodesTo (0x1000 + nnn.toNat) (.jp nnn) ∧
    (∃ t, exec (.jp nnn) s = .next t ∧ t.pc.toNat = nnn.toNat ∧ unchangedBut [.pc] s t) ∧
    (s.run = .running → fetch s = .ok (u16 (0x1000 + nnn.toNat)) → s.pc.toNat = nnn.toNat → step s = .next s)

/-- R146; that the sum is not masked to 12 bits is the spec's decision D14. -/
def Obligations.JumpWithOffsetAddsV0 : Prop :=
  ∀ (nnn : Addr12) (s : State), decodesTo (0xB000 + nnn.toNat) (.jpV0 nnn) ∧
    ∃ t, exec (.jpV0 nnn) s = .next t ∧ t.pc.toNat = nnn.toNat + (s.reg 0).toNat ∧ unchangedBut [.pc] s t

/-- R142: a CALL with fewer than 16 return addresses held pushes a + 2 and jumps; with 16 it takes `StackOverflow(a)`. -/
def Obligations.CallPushesReturnAddress : Prop :=
  ∀ (nnn : Addr12) (s : State) (a : Word), s.pc = a + 2 →
    decodesTo (0x2000 + nnn.toNat) (.call nnn) ∧
    (s.sp.toNat < 16 → ∃ t, exec (.call nnn) s = .next t ∧ t.pc.toNat = nnn.toNat ∧ t.sp.toNat = s.sp.toNat + 1 ∧
      (∀ j, t.slot j = if j.val = s.sp.toNat then a + 2 else s.slot j) ∧ unchangedBut [.pc, .stack] s t) ∧
    (s.sp.toNat = 16 → ∃ t, exec (.call nnn) s = .next t ∧ tookError (.stackOverflow a) s t)

/-- R144: a RET with an address held pops it into PC; with none it takes `StackUnderflow(a)`. -/
def Obligations.RetPopsReturnAddress : Prop :=
  ∀ (s : State) (a : Word), s.pc = a + 2 →
    decodesTo 0x00EE .ret ∧
    (∀ j : Nibble, s.sp.toNat = j.val + 1 → ∃ t, exec .ret s = .next t ∧ t.pc = s.slot j ∧ t.sp.toNat = j.val ∧
      (∀ q, t.slot q = s.slot q) ∧ unchangedBut [.pc, .stack] s t) ∧
    (s.sp.toNat = 0 → ∃ t, exec .ret s = .next t ∧ tookError (.stackUnderflow a) s t)

/-- The MODEL's choice (log 5), for the SP values 17..255 that R38 calls unreachable: CALL, and RET, stop by name, since the slot
they need does not exist. -/
def Obligations.AbsentStackSlotStops : Prop :=
  ∀ (nnn : Addr12) (s : State), 17 ≤ s.sp.toNat →
    exec (.call nnn) s = .fault (.noStackSlot s.sp) ∧ exec .ret s = .fault (.noStackSlot s.sp)

/-- R145: a step that runs CALL NNN, then a step that runs the RET standing at NNN. -/
def Obligations.CallThenRetReturns : Prop :=
  ∀ (s : State) (w : Word) (nnn : Addr12), s.run = .running → fetch s = .ok w → decode w = .ok (.call nnn) →
    s.sp.toNat < 16 → fetchable s.params nnn.toNat → s.byteAt nnn.toNat = 0x00 → s.byteAt (nnn.toNat + 1) = 0xEE →
    ∃ t u, step s = .next t ∧ step t = .next u ∧ u.pc = s.pc + 2 ∧ u.sp = s.sp ∧
      (∀ j, u.slot j = if j.val = s.sp.toNat then s.pc + 2 else s.slot j) ∧ unchangedBut [.pc, .stack] s u

/-- R151, R152: the skips that compare a register with a byte. -/
def Obligations.SkipOnByte : Prop :=
  ∀ (x : Nibble) (kk : Byte) (s : State) (a : Word), s.pc = a + 2 →
    decodesTo (0x3000 + 256 * x.val + kk.toNat) (.seVxKk x kk) ∧ decodesTo (0x4000 + 256 * x.val + kk.toNat) (.sneVxKk x kk) ∧
    (∃ t, exec (.seVxKk x kk) s = .next t ∧ t.pc = (if (s.reg x).toNat = kk.toNat then a + 4 else a + 2) ∧
      unchangedBut [.pc] s t) ∧
    (∃ t, exec (.sneVxKk x kk) s = .next t ∧ t.pc = (if (s.reg x).toNat = kk.toNat then a + 2 else a + 4) ∧
      unchangedBut [.pc] s t)

/-- R153, R154: the skips that compare two registers; every low nibble decodes alike, the spec's decision D8. -/
def Obligations.SkipOnRegister : Prop :=
  ∀ (x y n : Nibble) (s : State) (a : Word), s.pc = a + 2 →
    decodesTo (0x5000 + 256 * x.val + 16 * y.val + n.val) (.seVxVy x y) ∧
    decodesTo (0x9000 + 256 * x.val + 16 * y.val + n.val) (.sneVxVy x y) ∧
    (∃ t, exec (.seVxVy x y) s = .next t ∧ t.pc = (if (s.reg x).toNat = (s.reg y).toNat then a + 4 else a + 2) ∧
      unchangedBut [.pc] s t) ∧
    (∃ t, exec (.sneVxVy x y) s = .next t ∧ t.pc = (if (s.reg x).toNat = (s.reg y).toNat then a + 2 else a + 4) ∧
      unchangedBut [.pc] s t)

/-- R141, the spec's decision D6: under `P_SYS = NOP` SYS changes nothing (PC stays a + 2), under `FAULT` it takes
`SysUnsupported(w, a)`, w the word. -/
def Obligations.SysIsNopOrUnsupported : Prop :=
  ∀ (nnn : Addr12) (s : State) (a : Word), s.pc = a + 2 →
    (nnn.toNat ≠ 0x0E0 → nnn.toNat ≠ 0x0EE → decodesTo nnn.toNat (.sys nnn)) ∧
    (s.params.sys = .nop → ∃ t, exec (.sys nnn) s = .next t ∧ unchangedBut [] s t) ∧
    (s.params.sys = .fault → ∃ t, exec (.sys nnn) s = .next t ∧ tookError (.sysUnsupported (u16 nnn.toNat) a) s t)

/-! ### Registers, arithmetic, logic -/

/-- R171, R173: the register loads. -/
def Obligations.LoadsCopyTheirSource : Prop :=
  ∀ (x y : Nibble) (kk : Byte) (s : State),
    decodesTo (0x6000 + 256 * x.val + kk.toNat) (.ldVxKk x kk) ∧ decodesTo (0x8000 + 256 * x.val + 16 * y.val) (.ldVxVy x y) ∧
    (∃ t, exec (.ldVxKk x kk) s = .next t ∧ (∀ r, t.reg r = if r = x then kk else s.reg r) ∧ unchangedBut [.regs] s t) ∧
    (∃ t, exec (.ldVxVy x y) s = .next t ∧ (∀ r, t.reg r = if r = x then s.reg y else s.reg r) ∧ unchangedBut [.regs] s t)

/-- R172: ADD Vx, KK wraps modulo 256 and sets no flag. -/
def Obligations.AddByteWrapsWithoutFlag : Prop :=
  ∀ (x : Nibble) (kk : Byte) (s : State), decodesTo (0x7000 + 256 * x.val + kk.toNat) (.addVxKk x kk) ∧
    ∃ t, exec (.addVxKk x kk) s = .next t ∧
      (∀ r, (t.reg r).toNat = if r = x then ((s.reg x).toNat + kk.toNat) % 256 else (s.reg r).toNat) ∧ unchangedBut [.regs] s t

/-- R180, R181, R182: bit by bit; VF is kept, or cleared after the result under `Q_LOGIC_VF = RESET` (the spec's decision D10). -/
def Obligations.LogicIsBitwise : Prop :=
  ∀ (x y : Nibble) (s : State) (i : Instr) (op : Bool → Bool → Bool) (sub : Nat),
    (i, op, sub) ∈ [(Instr.orVxVy x y, (· || ·), 1), (Instr.andVxVy x y, (· && ·), 2), (Instr.xorVxVy x y, (· ^^ ·), 3)] →
    decodesTo (0x8000 + 256 * x.val + 16 * y.val + sub) i ∧
    ∃ t, exec i s = .next t ∧
      (∀ r k, (t.reg r).getLsbD k =
        if r = 15 ∧ s.params.logicVf = .reset then false
        else if r = x then op ((s.reg x).getLsbD k) ((s.reg y).getLsbD k) else (s.reg r).getLsbD k) ∧
      unchangedBut [.regs] s t

/-- R183: the sum modulo 256, then VF = carry; with X = F the flag is what VF holds (the spec's decision D9). -/
def Obligations.AddSetsCarry : Prop :=
  ∀ (x y : Nibble) (s : State), decodesTo (0x8004 + 256 * x.val + 16 * y.val) (.addVxVy x y) ∧
    ∃ t, exec (.addVxVy x y) s = .next t ∧
      (∀ r, (t.reg r).toNat = if r = 15 then (if (s.reg x).toNat + (s.reg y).toNat > 255 then 1 else 0)
        else if r = x then ((s.reg x).toNat + (s.reg y).toNat) % 256 else (s.reg r).toNat) ∧
      unchangedBut [.regs] s t

/-- R184: the difference modulo 256, then VF = 1 iff Vx >= Vy. -/
def Obligations.SubSetsNoBorrow : Prop :=
  ∀ (x y : Nibble) (s : State), decodesTo (0x8005 + 256 * x.val + 16 * y.val) (.subVxVy x y) ∧
    ∃ t, exec (.subVxVy x y) s = .next t ∧
      (∀ r, (t.reg r).toNat = if r = 15 then (if (s.reg x).toNat ≥ (s.reg y).toNat then 1 else 0)
        else if r = x then (if (s.reg x).toNat ≥ (s.reg y).toNat then (s.reg x).toNat - (s.reg y).toNat
          else 256 - ((s.reg y).toNat - (s.reg x).toNat))
        else (s.reg r).toNat) ∧
      unchangedBut [.regs] s t

/-- R186: Vy - Vx modulo 256 into Vx, then VF = 1 iff Vy >= Vx (the spec's decision D11). -/
def Obligations.SubnSetsNoBorrow : Prop :=
  ∀ (x y : Nibble) (s : State), decodesTo (0x8007 + 256 * x.val + 16 * y.val) (.subnVxVy x y) ∧
    ∃ t, exec (.subnVxVy x y) s = .next t ∧
      (∀ r, (t.reg r).toNat = if r = 15 then (if (s.reg y).toNat ≥ (s.reg x).toNat then 1 else 0)
        else if r = x then (if (s.reg y).toNat ≥ (s.reg x).toNat then (s.reg y).toNat - (s.reg x).toNat
          else 256 - ((s.reg x).toNat - (s.reg y).toNat))
        else (s.reg r).toNat) ∧
      unchangedBut [.regs] s t

/-- R185, R188: with v the shift source (Vx, or Vy under `Q_SHIFT_SRC = VY`, the spec's decision D12), SHR halves and VF = bit 0, SHL
doubles modulo 256 and VF = bit 7. -/
def Obligations.ShiftsMoveOneBitIntoVF : Prop :=
  ∀ (x y : Nibble) (s : State) (v : Nat),
    v = (if s.params.shiftSrc = .vx then (s.reg x).toNat else (s.reg y).toNat) →
    decodesTo (0x8006 + 256 * x.val + 16 * y.val) (.shrVxVy x y) ∧ decodesTo (0x800E + 256 * x.val + 16 * y.val) (.shlVxVy x y) ∧
    (∃ t, exec (.shrVxVy x y) s = .next t ∧
      (∀ r, (t.reg r).toNat = if r = 15 then v % 2 else if r = x then v / 2 else (s.reg r).toNat) ∧ unchangedBut [.regs] s t) ∧
    (∃ t, exec (.shlVxVy x y) s = .next t ∧
      (∀ r, (t.reg r).toNat = if r = 15 then v / 128 else if r = x then 2 * v % 256 else (s.reg r).toNat) ∧
      unchangedBut [.regs] s t)

/-- R190: one byte b is drawn, the next of the external stream (a free value, log 4), and Vx gets b & KK, bit by bit. -/
def Obligations.RandomIsMaskedDraw : Prop :=
  ∀ (x : Nibble) (kk : Byte) (s : State), decodesTo (0xC000 + 256 * x.val + kk.toNat) (.rnd x kk) ∧
    ∃ t, exec (.rnd x kk) s = .next t ∧ t.draws = s.draws + 1 ∧
      (∀ k, (t.reg x).getLsbD k = ((Config.randByte s.draws).getLsbD k && kk.getLsbD k)) ∧
      (∀ r, r ≠ x → t.reg r = s.reg r) ∧ unchangedBut [.regs, .draws] s t

/-! ### Display -/

/-- R200. -/
def Obligations.ClsClearsEveryPixel : Prop :=
  ∀ s : State, decodesTo 0x00E0 .cls ∧
    ∃ t, exec .cls s = .next t ∧ (∀ r c, Display.pixel t.disp r c = false) ∧ unchangedBut [.display] s t

/-- R201, R202, R203, R204, R205, R206: a pixel is toggled iff the wrapped sprite covers it, VF is 1 iff some set pixel was unset, and
nothing else changes; N = 0 reads nothing and clears VF. The operand order, the bit order and N = 0 are the spec's decisions D27, D28,
D29. -/
def Obligations.DrwXorsWrappedSprite : Prop :=
  ∀ (x y n : Nibble) (s : State), decodesTo (0xD000 + 256 * x.val + 16 * y.val + n.val) (.drw x y n) ∧
    (n.val = 0 ∨ s.i.toNat + n.val ≤ 0x1000 → ∃ t, exec (.drw x y n) s = .next t ∧
      (∀ r c, Display.pixel t.disp r c = true ↔
        ¬(Display.pixel s.disp r c = true ↔ spriteCovers s (s.reg x).toNat (s.reg y).toNat n.val r c)) ∧
      (t.reg 15 = 0 ∨ t.reg 15 = 1) ∧
      (t.reg 15 = 1 ↔ ∃ r c, Display.pixel s.disp r c = true ∧ Display.pixel t.disp r c = false) ∧
      (∀ r, r ≠ 15 → t.reg r = s.reg r) ∧ unchangedBut [.display, .regs] s t)

/-- R201, R59: a DRW with a sprite byte outside memory takes `OutOfBounds` of the lowest failing address and draws nothing. -/
def Obligations.DrwOutsideMemoryFaults : Prop :=
  ∀ (x y n : Nibble) (s : State) (addr : Nat), s.i.toNat ≤ addr → addr < s.i.toNat + n.val → 0xFFF < addr →
    (∀ b, s.i.toNat ≤ b → b < addr → b ≤ 0xFFF) →
    ∃ t, exec (.drw x y n) s = .next t ∧ tookError (.outOfBounds addr) s t

/-- R203, R202: drawing the same sprite twice at the same place restores the display, and the second draw sets VF = 1 iff some pixel the
sprite covers was unset before the first draw. R203's own inference ("iff the sprite has at least one 1 bit") holds only where no covered
pixel was set before; R202, which it is derived from, decides (log 10). -/
def Obligations.DrwTwiceRestoresDisplay : Prop :=
  ∀ (x y n : Nibble) (s t : State), n.val = 0 ∨ s.i.toNat + n.val ≤ 0x1000 → exec (.drw x y n) s = .next t →
    (t.reg x).toNat % 64 = (s.reg x).toNat % 64 → (t.reg y).toNat % 32 = (s.reg y).toNat % 32 →
    ∃ u, exec (.drw x y n) t = .next u ∧ unchangedBut [.regs] s u ∧
      (u.reg 15 = 1 ↔ ∃ r c, spriteCovers s (s.reg x).toNat (s.reg y).toNat n.val r c ∧ Display.pixel s.disp r c = false)

/-! ### Keypad and timers -/

/-- R220, R221, R222: a key number of 0..15 (or its low nibble under `P_KEY_RANGE = MASK`) selects the key; above 15 under `FAULT` both
take `KeyOutOfRange`. The treatment above 15 is the spec's decision D16. -/
def Obligations.KeySkipsReadTheKey : Prop :=
  ∀ (x : Nibble) (s : State) (a : Word), s.pc = a + 2 →
    decodesTo (0xE09E + 256 * x.val) (.skp x) ∧ decodesTo (0xE0A1 + 256 * x.val) (.sknp x) ∧
    (∀ k : Nibble, (s.reg x).toNat = k.val ∨ (s.params.keyRange = .mask ∧ (s.reg x).toNat % 16 = k.val) →
      (∃ t, exec (.skp x) s = .next t ∧ t.pc = (if s.pressed k = true then a + 4 else a + 2) ∧ unchangedBut [.pc] s t) ∧
      (∃ t, exec (.sknp x) s = .next t ∧ t.pc = (if s.pressed k = true then a + 2 else a + 4) ∧ unchangedBut [.pc] s t)) ∧
    (15 < (s.reg x).toNat → s.params.keyRange = .fault →
      (∃ t, exec (.skp x) s = .next t ∧ tookError (.keyOutOfRange (s.reg x) a) s t) ∧
      (∃ t, exec (.sknp x) s = .next t ∧ tookError (.keyOutOfRange (s.reg x) a) s t))

/-- R223, R224, R225: the timer moves. -/
def Obligations.TimerMoves : Prop :=
  ∀ (x : Nibble) (s : State),
    decodesTo (0xF007 + 256 * x.val) (.ldVxDt x) ∧ decodesTo (0xF015 + 256 * x.val) (.ldDtVx x) ∧
    decodesTo (0xF018 + 256 * x.val) (.ldStVx x) ∧
    (∃ t, exec (.ldVxDt x) s = .next t ∧ (∀ r, t.reg r = if r = x then s.dt else s.reg r) ∧ unchangedBut [.regs] s t) ∧
    (∃ t, exec (.ldDtVx x) s = .next t ∧ t.dt = s.reg x ∧ unchangedBut [.delay] s t) ∧
    (∃ t, exec (.ldStVx x) s = .next t ∧ t.st = s.reg x ∧ unchangedBut [.sound] s t)

/-- R226: LD Vx, K enters WaitingForKey(X) and holds PC at its own address (the spec's decision D18), whatever keys are pressed. -/
def Obligations.KeyWaitHoldsPc : Prop :=
  ∀ (x : Nibble) (s : State) (a : Word), s.pc = a + 2 →
    decodesTo (0xF00A + 256 * x.val) (.ldVxK x) ∧
    ∃ t, exec (.ldVxK x) s = .next t ∧ t.run = .waitingForKey x ∧ t.pc = a ∧ unchangedBut [.run, .pc] s t

/-- R117: a step of a waiting machine changes nothing while no key is pressed; else it stores the least pressed key (the spec's decision
D19), adds 2 to PC and goes back to Running. -/
def Obligations.PollCompletesOnLeastKey : Prop :=
  ∀ (x : Nibble) (s : State), s.run = .waitingForKey x →
    ((∀ k, s.pressed k = false) → step s = .next s) ∧
    (∀ k : Nibble, s.pressed k = true → (∀ j : Nibble, j < k → s.pressed j = false) →
      ∃ t, step s = .next t ∧ t.run = .running ∧ t.pc = s.pc + 2 ∧
        (∀ r, (t.reg r).toNat = if r = x then k.val else (s.reg r).toNat) ∧ unchangedBut [.run, .pc, .regs] s t)

/-- R32, R120: n ticks lower each timer by n, never below 0, and change nothing else, in every RUN state (the spec's decision D35). -/
def Obligations.TicksCountDownToZero : Prop :=
  ∀ (n : Nat) (s : State), ∃ t, runOps (List.replicate n .tickTimers) s = .next t ∧
    t.dt.toNat = s.dt.toNat - n ∧ t.st.toNat = s.st.toNat - n ∧ unchangedBut [.delay, .sound] s t

/-- R121, the spec's decision D38: set_key sets the level of one key and nothing else. -/
def Obligations.SetKeyWritesOneKey : Prop :=
  ∀ (k : Nibble) (p : Bool) (s : State), ∃ t, applyOp (.setKey k p) s = .next t ∧
    (∀ q, t.pressed q = if q = k then p else s.pressed q) ∧ unchangedBut [.keys] s t

/-! ### Index register and memory -/

/-- R240. -/
def Obligations.LoadIndexSetsI : Prop :=
  ∀ (nnn : Addr12) (s : State), decodesTo (0xA000 + nnn.toNat) (.ldI nnn) ∧
    ∃ t, exec (.ldI nnn) s = .next t ∧ t.i.toNat = nnn.toNat ∧ unchangedBut [.index] s t

/-- R241: the 16-bit wrap and the unchanged VF are the spec's decision D15. -/
def Obligations.AddIndexWraps : Prop :=
  ∀ (x : Nibble) (s : State), decodesTo (0xF01E + 256 * x.val) (.addIVx x) ∧
    ∃ t, exec (.addIVx x) s = .next t ∧ t.i.toNat = (s.i.toNat + (s.reg x).toNat) % 65536 ∧ unchangedBut [.index] s t

/-- R242: the digit's sprite is at `P_FONT_BASE` + 5 * digit; a digit above 15 faults, is masked or is used raw by `P_FONT_DIGIT`
(the spec's decisions D2, D17). -/
def Obligations.LoadFontAddress : Prop :=
  ∀ (x : Nibble) (s : State) (a : Word), s.pc = a + 2 → s.params.wf →
    decodesTo (0xF029 + 256 * x.val) (.ldFVx x) ∧
    (∀ d : Nat, ((s.reg x).toNat ≤ 15 ∨ s.params.fontDigit = .raw) ∧ d = (s.reg x).toNat ∨
        15 < (s.reg x).toNat ∧ s.params.fontDigit = .mask ∧ d = (s.reg x).toNat % 16 →
      ∃ t, exec (.ldFVx x) s = .next t ∧ t.i.toNat = s.params.fontBase + 5 * d ∧ unchangedBut [.index] s t) ∧
    (15 < (s.reg x).toNat → s.params.fontDigit = .fault →
      ∃ t, exec (.ldFVx x) s = .next t ∧ tookError (.fontDigitOutOfRange (s.reg x) a) s t)

/-- R246: the three digits at I, I+1, I+2, I kept; out of memory it takes `OutOfBounds` of the lowest failing address, below 0x200
under `P_RESERVED_WRITE = FAULT` it takes `ReservedWrite`, and then writes nothing. -/
def Obligations.BcdStoresDecimalDigits : Prop :=
  ∀ (x : Nibble) (s : State), decodesTo (0xF033 + 256 * x.val) (.ldBVx x) ∧
    (s.i.toNat + 2 ≤ 0xFFF → 0x200 ≤ s.i.toNat ∨ s.params.reservedWrite = .allow →
      ∃ t, exec (.ldBVx x) s = .next t ∧ (t.byteAt s.i.toNat).toNat = (s.reg x).toNat / 100 ∧
        (t.byteAt (s.i.toNat + 1)).toNat = (s.reg x).toNat / 10 % 10 ∧ (t.byteAt (s.i.toNat + 2)).toNat = (s.reg x).toNat % 10 ∧
        (∀ b, b < s.i.toNat ∨ s.i.toNat + 2 < b → t.byteAt b = s.byteAt b) ∧ unchangedBut [.memory] s t) ∧
    (0xFFF < s.i.toNat + 2 →
      ∃ t, exec (.ldBVx x) s = .next t ∧ tookError (.outOfBounds (if s.i.toNat ≤ 0xFFF then 0x1000 else s.i.toNat)) s t) ∧
    (s.i.toNat < 0x200 → s.params.reservedWrite = .fault →
      ∃ t, exec (.ldBVx x) s = .next t ∧ tookError (.reservedWrite s.i.toNat) s t)

/-- R247: V0..Vx at I..I+X, every other byte kept, I kept or I + X + 1 by `Q_MEM_I`; the two errors write nothing. -/
def Obligations.DumpStoresV0ToVx : Prop :=
  ∀ (x : Nibble) (s : State), decodesTo (0xF055 + 256 * x.val) (.ldMemVx x) ∧
    (s.i.toNat + x.val ≤ 0xFFF → 0x200 ≤ s.i.toNat ∨ s.params.reservedWrite = .allow →
      ∃ t, exec (.ldMemVx x) s = .next t ∧ (∀ r : Nibble, r ≤ x → t.byteAt (s.i.toNat + r.val) = s.reg r) ∧
        (∀ b, b < s.i.toNat ∨ s.i.toNat + x.val < b → t.byteAt b = s.byteAt b) ∧
        t.i.toNat = (if s.params.memI = .unchanged then s.i.toNat else s.i.toNat + x.val + 1) ∧
        unchangedBut [.memory, .index] s t) ∧
    (0xFFF < s.i.toNat + x.val →
      ∃ t, exec (.ldMemVx x) s = .next t ∧ tookError (.outOfBounds (if s.i.toNat ≤ 0xFFF then 0x1000 else s.i.toNat)) s t) ∧
    (s.i.toNat < 0x200 → s.params.reservedWrite = .fault →
      ∃ t, exec (.ldMemVx x) s = .next t ∧ tookError (.reservedWrite s.i.toNat) s t)

/-- R248: V0..Vx from I..I+X, every other register kept, I kept or I + X + 1 by `Q_MEM_I`; out of memory no register changes. -/
def Obligations.LoadFillsV0ToVx : Prop :=
  ∀ (x : Nibble) (s : State), decodesTo (0xF065 + 256 * x.val) (.ldVxMem x) ∧
    (s.i.toNat + x.val ≤ 0xFFF →
      ∃ t, exec (.ldVxMem x) s = .next t ∧ (∀ r : Nibble, t.reg r = if r ≤ x then s.byteAt (s.i.toNat + r.val) else s.reg r) ∧
        t.i.toNat = (if s.params.memI = .unchanged then s.i.toNat else s.i.toNat + x.val + 1) ∧
        unchangedBut [.regs, .index] s t) ∧
    (0xFFF < s.i.toNat + x.val →
      ∃ t, exec (.ldVxMem x) s = .next t ∧ tookError (.outOfBounds (if s.i.toNat ≤ 0xFFF then 0x1000 else s.i.toNat)) s t)

/-- R66: two registers stored over the next instruction are the opcode the very next fetch reads. -/
def Obligations.StoredCodeIsFetchedNext : Prop :=
  ∀ (x : Nibble) (s : State), 1 ≤ x.val → s.i = s.pc → 0x200 ≤ s.pc.toNat → s.pc.toNat + x.val ≤ 0xFFF →
    ∃ t w, exec (.ldMemVx x) s = .next t ∧ t.pc = s.pc ∧ fetch t = .ok w ∧
      w.toNat = (s.reg 0).toNat * 256 + (s.reg 1).toNat

/-! ### The step -/

/-- R110, R111, R112, R113, R114: in state Running, when the two bytes at PC, the first the high byte, decode to i, the step is exec of
i on the state with PC advanced by 2. -/
def Obligations.StepRunsDecodedInstruction : Prop :=
  ∀ (s : State) (w : Word) (i : Instr), s.run = .running → fetchable s.params s.pc.toNat →
    w.toNat = (s.byteAt s.pc.toNat).toNat * 256 + (s.byteAt (s.pc.toNat + 1)).toNat → decode w = .ok i →
    step s = exec i { s with pc := s.pc + 2 }

/-- R111, R262: a fetch past 0xFFE takes `FetchOutOfBounds(a)`, one below 0x200 under `P_LOW_FETCH = FAULT` takes `PcBelowProgram(a)`
(the spec's decision D21), and PC stays a. -/
def Obligations.FetchFaultsHoldPc : Prop :=
  ∀ s : State, s.run = .running →
    (0xFFF < s.pc.toNat + 1 → ∃ t, step s = .next t ∧ tookError (.fetchOutOfBounds s.pc) s t) ∧
    (s.pc.toNat < 0x200 → s.params.lowFetch = .fault → ∃ t, step s = .next t ∧ tookError (.pcBelowProgram s.pc) s t)

/-- R115, R87: an illegal word at PC takes `IllegalOpcode(w, a)` with PC at a + 2 (payload: the spec's decision D25). -/
def Obligations.IllegalWordFaults : Prop :=
  ∀ (s : State) (w : Word), s.run = .running → fetchable s.params s.pc.toNat →
    w.toNat = (s.byteAt s.pc.toNat).toNat * 256 + (s.byteAt (s.pc.toNat + 1)).toNat → (∀ i, decode w ≠ .ok i) →
    ∃ t, step s = .next t ∧ t.run = .faulted (.illegalOpcode w s.pc) ∧ t.pc = s.pc + 2 ∧ unchangedBut [.run, .pc] s t

/-- R118, R263: whatever the host calls, a faulted machine stays `Faulted(e)` and only the timers and the keys may change (the spec's
decisions D24, D35). -/
def Obligations.FaultedIsAbsorbing : Prop :=
  ∀ (e : Error) (s : State) (ops : List HostOp), s.run = .faulted e →
    ∃ t, runOps ops s = .next t ∧ t.run = .faulted e ∧ unchangedBut [.delay, .sound, .keys] s t

/-- R262, R13: a step that faults changes RUN and PC only; PC is a after a fetch fault and a + 2 after any other; the error is never
`RomTooLarge` (R260). The atomicity is the spec's decision D23. -/
def Obligations.FaultingStepWritesNothing : Prop :=
  ∀ (s t : State) (e : Error), s.run = .running → step s = .next t → t.run = .faulted e →
    unchangedBut [.run, .pc] s t ∧ errorCode e ≠ 1 ∧
    (fetchable s.params s.pc.toNat → t.pc = s.pc + 2) ∧ (¬ fetchable s.params s.pc.toNat → t.pc = s.pc)

/-- R302, the spec's decision D32: whatever the host calls, an ended run stays in its end, of the same kind, and only the timers and the
keys may change; steps alone change nothing; under one schedule a run has one end, reached after one number of calls; and if the run had
not ended at its start, the call that ends it is a step. -/
def Obligations.EndOfRunIsStableAndUnique : Prop :=
  (∀ (s : State) (ops : List HostOp), runEnded s →
    ∃ t, runOps ops s = .next t ∧ runEnded t ∧ (goodEnd s ↔ goodEnd t) ∧ unchangedBut [.delay, .sound, .keys] s t) ∧
  (∀ s : State, runEnded s → ∀ n, runOps (List.replicate n .step) s = .next s) ∧
  (∀ (f : Schedule) (m n : Nat) (s t u : State), endsAfter f m s t → endsAfter f n s u → m = n ∧ t = u) ∧
  (∀ (f : Schedule) (n : Nat) (s t : State), endsAfter f (n + 1) s t → f n = .step)

/-! ### Encoding -/

/-- R84, R86: decoding the word of a well-formed instruction gives it back, every operand at every value, and so does the decoder on the
word's bytes, high byte first (R54). -/
def Obligations.DecodeOfEncode : Prop :=
  ∀ (i : Instr) (rest : List Byte), i.wellFormed = true →
    decode (encode i) = .ok i ∧ decodeBytes (wordBytes (encode i) ++ rest) = .ok (i, rest)

/-- R84, R85: a decoded instruction is well-formed and its word is the word decoded, but for the low nibble of 5XY_ and 9XY_, which
the encoder writes as 0 (log 8). -/
def Obligations.EncodeOfDecode : Prop :=
  ∀ (w : Word) (i : Instr), decode w = .ok i → i.wellFormed = true ∧
    (w.toNat / 4096 ≠ 5 → w.toNat / 4096 ≠ 9 → encode i = w) ∧
    (w.toNat / 4096 = 5 ∨ w.toNat / 4096 = 9 → (encode i).toNat = w.toNat / 16 * 16)

/-- R84 against R86: the decoder gives the instruction of the row whose mask and match the word meets, and rejects exactly the words
that meet none. -/
def Obligations.DecodeAgreesWithTable : Prop :=
  ∀ w : Word, (∀ i, decode w = .ok i → tableRow w = some i.row) ∧
    (∀ e, decode w = .error e → e = .illegal w ∧ tableRow w = none)

/-- R85, R86: no word meets two rows of the table, but for SYS's row, which only CLS and RET share words with. -/
def Obligations.OpcodeRowsAreDisjoint : Prop :=
  ∀ (w : Word) (r q : OpRow), r ∈ opcodeRows → q ∈ opcodeRows → r.holds w = true →
    (q.holds w = true → r = q) ∧ (sysRow.holds w = true → r.num = 1 ∨ r.num = 2)

/-- R87: the illegal words. -/
def Obligations.IllegalWordsAreThese : Prop :=
  ∀ w : Word, (∀ i, decode w ≠ .ok i) ↔
    (w.toNat / 4096 = 0x8 ∧ w.toNat % 16 ∈ [0x8, 0x9, 0xA, 0xB, 0xC, 0xD, 0xF]) ∨
    (w.toNat / 4096 = 0xE ∧ w.toNat % 256 ∉ [0x9E, 0xA1]) ∨
    (w.toNat / 4096 = 0xF ∧ w.toNat % 256 ∉ [0x07, 0x0A, 0x15, 0x18, 0x1E, 0x29, 0x33, 0x55, 0x65])

/-- R82, R84, R86: words of each family written out from the table. -/
def Obligations.SampleWordsDecode : Prop :=
  decode 0x00E0 = .ok .cls ∧ decode 0x1200 = .ok (.jp 0x200) ∧ decode 0x6A02 = .ok (.ldVxKk 0xA 0x02) ∧
  decode 0x8AB4 = .ok (.addVxVy 0xA 0xB) ∧ decode 0xD015 = .ok (.drw 0 1 5) ∧ decode 0xF30A = .ok (.ldVxK 3) ∧
  decode 0xF155 = .ok (.ldMemVx 1) ∧ decode 0x8008 = .error (.illegal 0x8008)

/-! ### The whole machine -/

/-- The invariant holds at reset. -/
def Obligations.InvAtReset : Prop := Inv State.reset

/-- R38, R26, R144, R117, R260: every step keeps the invariant (canonical memory, SP at most 16, held return addresses at most 0x1000, PC
at most 0x10FE, a waiting PC where a fetch succeeds, no error but a step's own). -/
def Obligations.StepKeepsInv : Prop :=
  ∀ s t : State, Inv s → step s = .next t → Inv t

/-- Every boot that succeeds meets the invariant, and so does every state that any schedule of the host's calls (R123) reaches from one
that meets it. -/
def Obligations.BootAndScheduleKeepInv : Prop :=
  (∀ (p : Params) (font : List Byte) (init : Nat → Byte) (rom : List Byte) (t : State), p.wf → font.length = 80 →
    boot p font init rom = .ok t → Inv t) ∧
  (∀ (ops : List HostOp) (s t : State), Inv s → runOps ops s = .next t → Inv t)

/-- R110, R116: in every state that meets the invariant a step answers a next state: it neither stops nor is refused. -/
def Obligations.StepAlwaysAnswers : Prop :=
  ∀ s : State, Inv s → ∃ t, step s = .next t

/-- R52, R58, C7: under `P_RESERVED_WRITE = FAULT` no step changes a byte below 0x200 (the spec's decision D20). -/
def Obligations.ReservedRegionIsNeverWritten : Prop :=
  ∀ s t : State, s.params.reservedWrite = .fault → step s = .next t → ∀ a, a < 0x200 → t.byteAt a = s.byteAt a

/-- R29, R30, R32, R36, R37, R40, R51, R53, R190: which instruction may change which component. The components `params` and `draws` are
fields of the model's own (logs 2 and 4), and RUN holding an error is the model's next state after an error (log 1). -/
def Obligations.OnlyTheseInstructionsWrite : Prop :=
  ∀ (i : Instr) (s t : State), exec i s = .next t →
    Component.keys.same s t ∧ Component.params.same s t ∧
    (¬ Component.display.same s t → i = .cls ∨ ∃ x y n, i = .drw x y n) ∧
    (¬ Component.memory.same s t → ∃ x, i = .ldBVx x ∨ i = .ldMemVx x) ∧
    (¬ Component.stack.same s t → i = .ret ∨ ∃ nnn, i = .call nnn) ∧
    (¬ Component.delay.same s t → ∃ x, i = .ldDtVx x) ∧
    (¬ Component.sound.same s t → ∃ x, i = .ldStVx x) ∧
    (¬ Component.index.same s t → (∃ nnn, i = .ldI nnn) ∨ (∃ x, i = .addIVx x ∨ i = .ldFVx x) ∨
      (s.params.memI = .increment ∧ ∃ x, i = .ldMemVx x ∨ i = .ldVxMem x)) ∧
    (¬ Component.draws.same s t → ∃ x kk, i = .rnd x kk) ∧
    (¬ Component.run.same s t → (∃ e, t.run = .faulted e) ∨ ∃ x, i = .ldVxK x)

/-- R23, R22: an instruction changes only the registers the table lets it write. -/
def Obligations.OnlyTheseRegistersChange : Prop :=
  ∀ (i : Instr) (s t : State) (r : Nibble), exec i s = .next t → t.reg r ≠ s.reg r → r ∈ writtenRegs s.params i

/-- R25, R119: PC, entered as a + 2, is changed only by a jump, a call, a return, a skip that is taken (by 2 more) and LD Vx, K (back
to a). -/
def Obligations.PcFollowsTheLaw : Prop :=
  ∀ (i : Instr) (s t : State), exec i s = .next t → t.pc ≠ s.pc →
    (i = .ret ∨ ∃ nnn, i = .jp nnn ∨ i = .call nnn ∨ i = .jpV0 nnn) ∨
    ((∃ x, i = .ldVxK x) ∧ t.pc + 2 = s.pc) ∨
    (((∃ x kk, i = .seVxKk x kk ∨ i = .sneVxKk x kk) ∨ (∃ x y, i = .seVxVy x y ∨ i = .sneVxVy x y) ∨
      (∃ x, i = .skp x ∨ i = .sknp x)) ∧ t.pc = s.pc + 2)

/-- R123, the spec's decision D30: from every state that meets the invariant, every infinite schedule of `step`, `tick_timers`, `set_key`
and reads has a run that never stops; each of its states meets the invariant and is where the finite sequence of the calls so far ends. -/
def Obligations.InfiniteSchedulesRun : Prop :=
  ∀ (f : Schedule) (s : State), Inv s →
    ∃ run : Nat → State, run 0 = s ∧ infiniteRun f run ∧
      ∀ n, Inv (run n) ∧ runSchedule f s n = .next (run n) ∧ runOps ((List.range n).map f) s = .next (run n)

/-- R296, R297: a key wait ends, and DT reaches 0, under a fair host. The wait ends, with PC 2 more and a key's number in the register, if
the host keeps stepping and from some call on some key is always pressed; it never ends, and only timers and keys change, if the host
never steps or no key is ever pressed. DT falls to 0 and stays there if the host keeps ticking and no step changes DT. -/
def Obligations.ProgressIsTheHosts : Prop :=
  ∀ (f : Schedule) (run : Nat → State), infiniteRun f run →
    (∀ x, (run 0).run = .waitingForKey x →
      (stepsForever f → (∃ n₀, ∀ n, n₀ ≤ n → ∃ k, (run n).pressed k = true) →
        ∃ n, ∃ k : Nibble, (run n).run = .running ∧ (run n).pc = (run 0).pc + 2 ∧ ((run n).reg x).toNat = k.val) ∧
      ((∀ n, f n ≠ .step) ∨ (∀ n k, (run n).pressed k = false) →
        ∀ n, unchangedBut [.delay, .sound, .keys] (run 0) (run n))) ∧
    (ticksForever f → (∀ n, f n = .step → (run (n + 1)).dt = (run n).dt) → ∃ n, ∀ m, n ≤ m → (run m).dt = 0)
end

