-- ==== Sys2Proof/Laws/Decode.lean ====
section
/-! SUPPORT. The fields of an encoded word, and the decoding of each format's words. -/

namespace Sys2Proof

/-! ### Values of encoded words -/

theorem u16_toNat {n : Nat} (h : n < 65536) : (u16 n).toNat = n := by simp [u16, Nat.mod_eq_of_lt h]

theorem u8_toNat {n : Nat} (h : n < 256) : (u8 n).toNat = n := by simp [u8, Nat.mod_eq_of_lt h]

theorem zext16_byte_toNat (b : Byte) : (zext16 b).toNat = b.toNat := by
  have := b.isLt; simp only [zext16, BitVec.toNat_setWidth]; omega

theorem zext16_addr_toNat (a : Addr12) : (zext16 a).toNat = a.toNat := by
  have := a.isLt; simp only [zext16, BitVec.toNat_setWidth]; omega

theorem encNNN_toNat {op : Nat} (h : op < 16) (nnn : Addr12) : (encNNN op nnn).toNat = op * 4096 + nnn.toNat :=
  u16_toNat (by have := nnn.isLt; omega)

theorem encXKK_toNat {op : Nat} (h : op < 16) (x : Nibble) (kk : Byte) :
    (encXKK op x kk).toNat = op * 4096 + x.val * 256 + kk.toNat :=
  u16_toNat (by have := kk.isLt; have := x.isLt; omega)

theorem encXYN_toNat {op n : Nat} (h : op < 16) (hn : n < 16) (x y : Nibble) :
    (encXYN op x y n).toNat = op * 4096 + x.val * 256 + y.val * 16 + n :=
  u16_toNat (by have := x.isLt; have := y.isLt; omega)

theorem encX_toNat {op sub : Nat} (h : op < 16) (hs : sub < 256) (x : Nibble) :
    (encX op x sub).toNat = op * 4096 + x.val * 256 + sub :=
  u16_toNat (by have := x.isLt; omega)

/-! ### Fields of a word whose value is known -/

theorem fieldX_eq {w : Word} {x : Nibble} (h : w.toNat / 256 % 16 = x.val) : fieldX w = x := Fin.ext h

theorem fieldY_eq {w : Word} {y : Nibble} (h : w.toNat / 16 % 16 = y.val) : fieldY w = y := Fin.ext h

theorem fieldN_eq {w : Word} {n : Nibble} (h : w.toNat % 16 = n.val) : fieldN w = n := Fin.ext h

theorem fieldKK_eq {w : Word} {kk : Byte} (h : w.toNat % 256 = kk.toNat) : fieldKK w = kk := by
  have := kk.isLt
  exact BitVec.eq_of_toNat_eq (by simp only [fieldKK, BitVec.toNat_ofNat]; omega)

theorem fieldNNN_eq {w : Word} {nnn : Addr12} (h : w.toNat % 4096 = nnn.toNat) : fieldNNN w = nnn := by
  have := nnn.isLt
  exact BitVec.eq_of_toNat_eq (by simp only [fieldNNN, BitVec.toNat_ofNat]; omega)

/-! ### Decoding by the word's value -/

/-- Format `NNN`: the value `op * 4096 + nnn`. -/
theorem fields_of_NNN {w : Word} {op : Nat} {nnn : Addr12} (h : w.toNat = op * 4096 + nnn.toNat) :
    opNibble w = op ∧ fieldNNN w = nnn := by
  have := nnn.isLt
  exact ⟨by simp only [opNibble]; omega, fieldNNN_eq (by omega)⟩

/-- Format `XKK`: the value `op * 4096 + x * 256 + kk`. -/
theorem fields_of_XKK {w : Word} {op : Nat} {x : Nibble} {kk : Byte} (h : w.toNat = op * 4096 + x.val * 256 + kk.toNat) :
    opNibble w = op ∧ fieldX w = x ∧ fieldKK w = kk := by
  have := kk.isLt; have := x.isLt
  exact ⟨by simp only [opNibble]; omega, fieldX_eq (by omega), fieldKK_eq (by omega)⟩

/-- Formats `XY` and `XYN`: the value `op * 4096 + x * 256 + y * 16 + n`. -/
theorem fields_of_XYN {w : Word} {op : Nat} {x y n : Nibble} (h : w.toNat = op * 4096 + x.val * 256 + y.val * 16 + n.val) :
    opNibble w = op ∧ fieldX w = x ∧ fieldY w = y ∧ fieldN w = n ∧ w.toNat % 16 = n.val := by
  have := y.isLt; have := x.isLt; have := n.isLt
  exact ⟨by simp only [opNibble]; omega, fieldX_eq (by omega), fieldY_eq (by omega), fieldN_eq (by omega), by omega⟩

/-- Format `X`: the value `op * 4096 + x * 256 + sub`. -/
theorem fields_of_X {w : Word} {op sub : Nat} {x : Nibble} (h : w.toNat = op * 4096 + x.val * 256 + sub) (hs : sub < 256) :
    opNibble w = op ∧ fieldX w = x ∧ w.toNat % 256 = sub := by
  have := x.isLt
  exact ⟨by simp only [opNibble]; omega, fieldX_eq (by omega), by omega⟩

/-! ### The fields of an encoder's word -/

section
variable {op n sub : Nat} (hop : op < 16) (x y : Nibble) (kk : Byte) (nnn : Addr12)
include hop

@[simp] theorem opNibble_encNNN : opNibble (encNNN op nnn) = op := (fields_of_NNN (encNNN_toNat hop nnn)).1

@[simp] theorem fieldNNN_encNNN : fieldNNN (encNNN op nnn) = nnn := (fields_of_NNN (encNNN_toNat hop nnn)).2

@[simp] theorem opNibble_encXKK : opNibble (encXKK op x kk) = op := (fields_of_XKK (encXKK_toNat hop x kk)).1

@[simp] theorem fieldX_encXKK : fieldX (encXKK op x kk) = x := (fields_of_XKK (encXKK_toNat hop x kk)).2.1

@[simp] theorem fieldKK_encXKK : fieldKK (encXKK op x kk) = kk := (fields_of_XKK (encXKK_toNat hop x kk)).2.2

@[simp] theorem opNibble_encXYN (hn : n < 16) : opNibble (encXYN op x y n) = op :=
  (fields_of_XYN (n := ⟨n, hn⟩) (encXYN_toNat hop hn x y)).1

@[simp] theorem fieldX_encXYN (hn : n < 16) : fieldX (encXYN op x y n) = x :=
  (fields_of_XYN (n := ⟨n, hn⟩) (encXYN_toNat hop hn x y)).2.1

@[simp] theorem fieldY_encXYN (hn : n < 16) : fieldY (encXYN op x y n) = y :=
  (fields_of_XYN (n := ⟨n, hn⟩) (encXYN_toNat hop hn x y)).2.2.1

@[simp] theorem lowNibble_encXYN (hn : n < 16) : (encXYN op x y n).toNat % 16 = n :=
  (fields_of_XYN (n := ⟨n, hn⟩) (encXYN_toNat hop hn x y)).2.2.2.2

@[simp] theorem fieldN_encXYN (m : Nibble) : fieldN (encXYN op x y m.val) = m :=
  (fields_of_XYN (encXYN_toNat hop m.isLt x y)).2.2.2.1

@[simp] theorem opNibble_encX (hs : sub < 256) : opNibble (encX op x sub) = op := (fields_of_X (encX_toNat hop hs x) hs).1

@[simp] theorem fieldX_encX (hs : sub < 256) : fieldX (encX op x sub) = x := (fields_of_X (encX_toNat hop hs x) hs).2.1

@[simp] theorem lowByte_encX (hs : sub < 256) : (encX op x sub).toNat % 256 = sub :=
  (fields_of_X (encX_toNat hop hs x) hs).2.2

end

/-! ### The fields of a word given as a number -/

theorem fields_u16_NNN {n op : Nat} {nnn : Addr12} (hop : op < 16) (h : n = op * 4096 + nnn.toNat) :
    opNibble (u16 n) = op ∧ fieldNNN (u16 n) = nnn := by
  have := nnn.isLt
  exact fields_of_NNN (by rw [u16_toNat (by omega)]; exact h)

theorem fields_u16_XKK {n op : Nat} {x : Nibble} {kk : Byte} (hop : op < 16) (h : n = op * 4096 + x.val * 256 + kk.toNat) :
    opNibble (u16 n) = op ∧ fieldX (u16 n) = x ∧ fieldKK (u16 n) = kk := by
  have := kk.isLt; have := x.isLt
  exact fields_of_XKK (by rw [u16_toNat (by omega)]; exact h)

theorem fields_u16_XYN {v op : Nat} {x y n : Nibble} (hop : op < 16) (h : v = op * 4096 + x.val * 256 + y.val * 16 + n.val) :
    opNibble (u16 v) = op ∧ fieldX (u16 v) = x ∧ fieldY (u16 v) = y ∧ fieldN (u16 v) = n ∧ (u16 v).toNat % 16 = n.val := by
  have := y.isLt; have := x.isLt; have := n.isLt
  exact fields_of_XYN (by rw [u16_toNat (by omega)]; exact h)

theorem fields_u16_X {n op sub : Nat} {x : Nibble} (hop : op < 16) (hs : sub < 256) (h : n = op * 4096 + x.val * 256 + sub) :
    opNibble (u16 n) = op ∧ fieldX (u16 n) = x ∧ (u16 n).toNat % 256 = sub := by
  have := x.isLt
  exact fields_of_X (by rw [u16_toNat (by omega)]; exact h) hs

/-! ### Bytes of a word -/

theorem wordOfBytes_toNat (hi lo : Byte) : (wordOfBytes hi lo).toNat = hi.toNat * 256 + lo.toNat :=
  u16_toNat (by have := hi.isLt; have := lo.isLt; omega)

theorem highByte_toNat (w : Word) : (highByte w).toNat = w.toNat / 256 := by
  have := w.isLt; simp only [highByte, BitVec.toNat_ofNat]; omega

theorem lowByte_toNat (w : Word) : (lowByte w).toNat = w.toNat % 256 := by
  simp only [lowByte, BitVec.toNat_ofNat]; omega

/-- A word laid out high byte first reads back as itself. -/
@[simp] theorem wordOfBytes_split (w : Word) : wordOfBytes (highByte w) (lowByte w) = w :=
  BitVec.eq_of_toNat_eq (by rw [wordOfBytes_toNat, highByte_toNat, lowByte_toNat]; omega)

theorem highByte_wordOfBytes (hi lo : Byte) : highByte (wordOfBytes hi lo) = hi :=
  BitVec.eq_of_toNat_eq (by have := lo.isLt; rw [highByte_toNat, wordOfBytes_toNat]; omega)

theorem lowByte_wordOfBytes (hi lo : Byte) : lowByte (wordOfBytes hi lo) = lo :=
  BitVec.eq_of_toNat_eq (by have := lo.isLt; rw [lowByte_toNat, wordOfBytes_toNat]; omega)

/-- The decoder on the bytes of a word is `decode` on the word. -/
theorem decodeBytes_wordBytes (w : Word) (rest : List Byte) :
    decodeBytes (wordBytes w ++ rest) = (decode w).map fun i => (i, rest) := by
  simp [wordBytes, decodeBytes]

theorem tableWord_self (w : Word) : tableWord 16 w.toNat = w :=
  BitVec.eq_of_toNat_eq (by have := w.isLt; simp only [tableWord, BitVec.toNat_ofNat]; omega)

/-! ### Masks as arithmetic -/

theorem and_split {k b d : Nat} (a c : Nat) (hb : b < 2 ^ k) (hd : d < 2 ^ k) :
    (2 ^ k * a + b) &&& (2 ^ k * c + d) = 2 ^ k * (a &&& c) + (b &&& d) := by
  refine Nat.eq_of_testBit_eq fun j => ?_
  rw [Nat.testBit_and, Nat.testBit_two_pow_mul_add _ hb, Nat.testBit_two_pow_mul_add _ hd,
    Nat.testBit_two_pow_mul_add _ (lt_of_le_of_lt Nat.and_le_left hb)]
  split <;> simp [Nat.testBit_and]

/-- A mask that keeps the high nibble and some of the low 12 bits. -/
theorem and_mask {n m : Nat} (hn : n < 65536) (hm : m < 4096) : n &&& (0xF000 + m) = n / 4096 * 4096 + (n % 4096 &&& m) := by
  have h := and_split (k := 12) (n / 4096) 15 (b := n % 4096) (d := m) (by omega) (by omega)
  have e : n / 4096 &&& 15 = n / 4096 := by
    rw [show (15 : Nat) = 2 ^ 4 - 1 from rfl, Nat.and_two_pow_sub_one_eq_mod]; omega
  rw [e] at h
  have e1 : 2 ^ 12 * (n / 4096) + n % 4096 = n := by omega
  have e2 : 2 ^ 12 * 15 + m = 0xF000 + m := by omega
  rw [e1, e2] at h
  omega

/-- `w & 0xF000` is the high nibble in its place. -/
theorem mask_F000 (w : Word) : (w &&& 0xF000#16).toNat = w.toNat / 4096 * 4096 := by
  have h := and_mask (m := 0) w.isLt (by omega)
  rw [Nat.and_zero] at h
  simpa [BitVec.toNat_and] using h

/-- `w & 0xF00F` is the high and the low nibble in their places. -/
theorem mask_F00F (w : Word) : (w &&& 0xF00F#16).toNat = w.toNat / 4096 * 4096 + w.toNat % 16 := by
  have h := and_mask (m := 15) w.isLt (by omega)
  rw [show (15 : Nat) = 2 ^ 4 - 1 from rfl, Nat.and_two_pow_sub_one_eq_mod] at h
  rw [BitVec.toNat_and]
  exact h.trans (by omega)

/-- `w & 0xF0FF` is the high nibble and the low byte in their places. -/
theorem mask_F0FF (w : Word) : (w &&& 0xF0FF#16).toNat = w.toNat / 4096 * 4096 + w.toNat % 256 := by
  have h := and_mask (m := 255) w.isLt (by omega)
  rw [show (255 : Nat) = 2 ^ 8 - 1 from rfl, Nat.and_two_pow_sub_one_eq_mod] at h
  rw [BitVec.toNat_and]
  exact h.trans (by omega)

/-- `w & 0xFFFF` is the word. -/
theorem mask_FFFF (w : Word) : w &&& 0xFFFF#16 = w := BitVec.and_allOnes (x := w)

/-! ### Rows of the opcode table as conditions on nibbles -/

theorem opNibble_lt (w : Word) : opNibble w < 16 := by have := w.isLt; unfold opNibble; omega

/-- A row that looks at the high nibble. -/
theorem holds_F000 (w : Word) (k : Nat) (p : Word) (hp : p.toNat % 4096 = 0) :
    (OpRow.mk k 0xF000 p).holds w = decide (opNibble w = p.toNat / 4096) := by
  have h := mask_F000 w
  rw [Bool.eq_iff_iff, OpRow.holds, beq_iff_eq, decide_eq_true_eq, ← BitVec.toNat_inj, opNibble]
  exact ⟨fun e => by have := h.symm.trans e; dsimp only at this; omega, fun e => h.trans (by dsimp only; omega)⟩

/-- A row that looks at the high and the low nibble. -/
theorem holds_F00F (w : Word) (k : Nat) (p : Word) (hp : p.toNat % 4096 < 16) :
    (OpRow.mk k 0xF00F p).holds w = decide (opNibble w = p.toNat / 4096 ∧ w.toNat % 16 = p.toNat % 4096) := by
  have h := mask_F00F w
  rw [Bool.eq_iff_iff, OpRow.holds, beq_iff_eq, decide_eq_true_eq, ← BitVec.toNat_inj, opNibble]
  exact ⟨fun e => by have := h.symm.trans e; dsimp only at this; omega, fun e => h.trans (by dsimp only; omega)⟩

/-- A row that looks at the high nibble and the low byte. -/
theorem holds_F0FF (w : Word) (k : Nat) (p : Word) (hp : p.toNat % 4096 < 256) :
    (OpRow.mk k 0xF0FF p).holds w = decide (opNibble w = p.toNat / 4096 ∧ w.toNat % 256 = p.toNat % 4096) := by
  have h := mask_F0FF w
  rw [Bool.eq_iff_iff, OpRow.holds, beq_iff_eq, decide_eq_true_eq, ← BitVec.toNat_inj, opNibble]
  exact ⟨fun e => by have := h.symm.trans e; dsimp only at this; omega, fun e => h.trans (by dsimp only; omega)⟩

/-- A row that looks at the whole word. -/
theorem holds_FFFF (w : Word) (k : Nat) (p : Word) : (OpRow.mk k 0xFFFF p).holds w = decide (w = p) := by
  rw [Bool.eq_iff_iff, OpRow.holds, beq_iff_eq, decide_eq_true_eq]
  exact ⟨fun h => (mask_FFFF w).symm.trans h, fun h => (mask_FFFF w).trans h⟩

end Sys2Proof
end

