-- ==== Sys2Proof/Laws/State.lean ====
section
/-! SUPPORT. One lemma per field per update of the state, and the accessors over the updates: no proof unfolds a record update. -/

namespace Sys2Proof.Machine

variable (s : State)

/-! ### `setReg` -/

@[simp] theorem State.setReg_mem (r : Nibble) (b : Byte) : (s.setReg r b).mem = s.mem := rfl
@[simp] theorem State.setReg_v (r : Nibble) (b : Byte) : (s.setReg r b).v = s.v.set r b := rfl
@[simp] theorem State.setReg_i (r : Nibble) (b : Byte) : (s.setReg r b).i = s.i := rfl
@[simp] theorem State.setReg_pc (r : Nibble) (b : Byte) : (s.setReg r b).pc = s.pc := rfl
@[simp] theorem State.setReg_sp (r : Nibble) (b : Byte) : (s.setReg r b).sp = s.sp := rfl
@[simp] theorem State.setReg_stack (r : Nibble) (b : Byte) : (s.setReg r b).stack = s.stack := rfl
@[simp] theorem State.setReg_dt (r : Nibble) (b : Byte) : (s.setReg r b).dt = s.dt := rfl
@[simp] theorem State.setReg_st (r : Nibble) (b : Byte) : (s.setReg r b).st = s.st := rfl
@[simp] theorem State.setReg_disp (r : Nibble) (b : Byte) : (s.setReg r b).disp = s.disp := rfl
@[simp] theorem State.setReg_key (r : Nibble) (b : Byte) : (s.setReg r b).key = s.key := rfl
@[simp] theorem State.setReg_run (r : Nibble) (b : Byte) : (s.setReg r b).run = s.run := rfl
@[simp] theorem State.setReg_params (r : Nibble) (b : Byte) : (s.setReg r b).params = s.params := rfl
@[simp] theorem State.setReg_draws (r : Nibble) (b : Byte) : (s.setReg r b).draws = s.draws := rfl

/-! ### `setI` -/

@[simp] theorem State.setI_mem (w : Word) : (s.setI w).mem = s.mem := rfl
@[simp] theorem State.setI_v (w : Word) : (s.setI w).v = s.v := rfl
@[simp] theorem State.setI_i (w : Word) : (s.setI w).i = w := rfl
@[simp] theorem State.setI_pc (w : Word) : (s.setI w).pc = s.pc := rfl
@[simp] theorem State.setI_sp (w : Word) : (s.setI w).sp = s.sp := rfl
@[simp] theorem State.setI_stack (w : Word) : (s.setI w).stack = s.stack := rfl
@[simp] theorem State.setI_dt (w : Word) : (s.setI w).dt = s.dt := rfl
@[simp] theorem State.setI_st (w : Word) : (s.setI w).st = s.st := rfl
@[simp] theorem State.setI_disp (w : Word) : (s.setI w).disp = s.disp := rfl
@[simp] theorem State.setI_key (w : Word) : (s.setI w).key = s.key := rfl
@[simp] theorem State.setI_run (w : Word) : (s.setI w).run = s.run := rfl
@[simp] theorem State.setI_params (w : Word) : (s.setI w).params = s.params := rfl
@[simp] theorem State.setI_draws (w : Word) : (s.setI w).draws = s.draws := rfl

/-! ### `setPc` -/

@[simp] theorem State.setPc_mem (w : Word) : (s.setPc w).mem = s.mem := rfl
@[simp] theorem State.setPc_v (w : Word) : (s.setPc w).v = s.v := rfl
@[simp] theorem State.setPc_i (w : Word) : (s.setPc w).i = s.i := rfl
@[simp] theorem State.setPc_pc (w : Word) : (s.setPc w).pc = w := rfl
@[simp] theorem State.setPc_sp (w : Word) : (s.setPc w).sp = s.sp := rfl
@[simp] theorem State.setPc_stack (w : Word) : (s.setPc w).stack = s.stack := rfl
@[simp] theorem State.setPc_dt (w : Word) : (s.setPc w).dt = s.dt := rfl
@[simp] theorem State.setPc_st (w : Word) : (s.setPc w).st = s.st := rfl
@[simp] theorem State.setPc_disp (w : Word) : (s.setPc w).disp = s.disp := rfl
@[simp] theorem State.setPc_key (w : Word) : (s.setPc w).key = s.key := rfl
@[simp] theorem State.setPc_run (w : Word) : (s.setPc w).run = s.run := rfl
@[simp] theorem State.setPc_params (w : Word) : (s.setPc w).params = s.params := rfl
@[simp] theorem State.setPc_draws (w : Word) : (s.setPc w).draws = s.draws := rfl

/-! ### `setSp` -/

@[simp] theorem State.setSp_mem (n : Byte) : (s.setSp n).mem = s.mem := rfl
@[simp] theorem State.setSp_v (n : Byte) : (s.setSp n).v = s.v := rfl
@[simp] theorem State.setSp_i (n : Byte) : (s.setSp n).i = s.i := rfl
@[simp] theorem State.setSp_pc (n : Byte) : (s.setSp n).pc = s.pc := rfl
@[simp] theorem State.setSp_sp (n : Byte) : (s.setSp n).sp = n := rfl
@[simp] theorem State.setSp_stack (n : Byte) : (s.setSp n).stack = s.stack := rfl
@[simp] theorem State.setSp_dt (n : Byte) : (s.setSp n).dt = s.dt := rfl
@[simp] theorem State.setSp_st (n : Byte) : (s.setSp n).st = s.st := rfl
@[simp] theorem State.setSp_disp (n : Byte) : (s.setSp n).disp = s.disp := rfl
@[simp] theorem State.setSp_key (n : Byte) : (s.setSp n).key = s.key := rfl
@[simp] theorem State.setSp_run (n : Byte) : (s.setSp n).run = s.run := rfl
@[simp] theorem State.setSp_params (n : Byte) : (s.setSp n).params = s.params := rfl
@[simp] theorem State.setSp_draws (n : Byte) : (s.setSp n).draws = s.draws := rfl

/-! ### `setSlot` -/

@[simp] theorem State.setSlot_mem (j : Nibble) (w : Word) : (s.setSlot j w).mem = s.mem := rfl
@[simp] theorem State.setSlot_v (j : Nibble) (w : Word) : (s.setSlot j w).v = s.v := rfl
@[simp] theorem State.setSlot_i (j : Nibble) (w : Word) : (s.setSlot j w).i = s.i := rfl
@[simp] theorem State.setSlot_pc (j : Nibble) (w : Word) : (s.setSlot j w).pc = s.pc := rfl
@[simp] theorem State.setSlot_sp (j : Nibble) (w : Word) : (s.setSlot j w).sp = s.sp := rfl
@[simp] theorem State.setSlot_stack (j : Nibble) (w : Word) : (s.setSlot j w).stack = s.stack.set j w := rfl
@[simp] theorem State.setSlot_dt (j : Nibble) (w : Word) : (s.setSlot j w).dt = s.dt := rfl
@[simp] theorem State.setSlot_st (j : Nibble) (w : Word) : (s.setSlot j w).st = s.st := rfl
@[simp] theorem State.setSlot_disp (j : Nibble) (w : Word) : (s.setSlot j w).disp = s.disp := rfl
@[simp] theorem State.setSlot_key (j : Nibble) (w : Word) : (s.setSlot j w).key = s.key := rfl
@[simp] theorem State.setSlot_run (j : Nibble) (w : Word) : (s.setSlot j w).run = s.run := rfl
@[simp] theorem State.setSlot_params (j : Nibble) (w : Word) : (s.setSlot j w).params = s.params := rfl
@[simp] theorem State.setSlot_draws (j : Nibble) (w : Word) : (s.setSlot j w).draws = s.draws := rfl

/-! ### `setDt` -/

@[simp] theorem State.setDt_mem (b : Byte) : (s.setDt b).mem = s.mem := rfl
@[simp] theorem State.setDt_v (b : Byte) : (s.setDt b).v = s.v := rfl
@[simp] theorem State.setDt_i (b : Byte) : (s.setDt b).i = s.i := rfl
@[simp] theorem State.setDt_pc (b : Byte) : (s.setDt b).pc = s.pc := rfl
@[simp] theorem State.setDt_sp (b : Byte) : (s.setDt b).sp = s.sp := rfl
@[simp] theorem State.setDt_stack (b : Byte) : (s.setDt b).stack = s.stack := rfl
@[simp] theorem State.setDt_dt (b : Byte) : (s.setDt b).dt = b := rfl
@[simp] theorem State.setDt_st (b : Byte) : (s.setDt b).st = s.st := rfl
@[simp] theorem State.setDt_disp (b : Byte) : (s.setDt b).disp = s.disp := rfl
@[simp] theorem State.setDt_key (b : Byte) : (s.setDt b).key = s.key := rfl
@[simp] theorem State.setDt_run (b : Byte) : (s.setDt b).run = s.run := rfl
@[simp] theorem State.setDt_params (b : Byte) : (s.setDt b).params = s.params := rfl
@[simp] theorem State.setDt_draws (b : Byte) : (s.setDt b).draws = s.draws := rfl

/-! ### `setSt` -/

@[simp] theorem State.setSt_mem (b : Byte) : (s.setSt b).mem = s.mem := rfl
@[simp] theorem State.setSt_v (b : Byte) : (s.setSt b).v = s.v := rfl
@[simp] theorem State.setSt_i (b : Byte) : (s.setSt b).i = s.i := rfl
@[simp] theorem State.setSt_pc (b : Byte) : (s.setSt b).pc = s.pc := rfl
@[simp] theorem State.setSt_sp (b : Byte) : (s.setSt b).sp = s.sp := rfl
@[simp] theorem State.setSt_stack (b : Byte) : (s.setSt b).stack = s.stack := rfl
@[simp] theorem State.setSt_dt (b : Byte) : (s.setSt b).dt = s.dt := rfl
@[simp] theorem State.setSt_st (b : Byte) : (s.setSt b).st = b := rfl
@[simp] theorem State.setSt_disp (b : Byte) : (s.setSt b).disp = s.disp := rfl
@[simp] theorem State.setSt_key (b : Byte) : (s.setSt b).key = s.key := rfl
@[simp] theorem State.setSt_run (b : Byte) : (s.setSt b).run = s.run := rfl
@[simp] theorem State.setSt_params (b : Byte) : (s.setSt b).params = s.params := rfl
@[simp] theorem State.setSt_draws (b : Byte) : (s.setSt b).draws = s.draws := rfl

/-! ### `setDisp` -/

@[simp] theorem State.setDisp_mem (d : Display) : (s.setDisp d).mem = s.mem := rfl
@[simp] theorem State.setDisp_v (d : Display) : (s.setDisp d).v = s.v := rfl
@[simp] theorem State.setDisp_i (d : Display) : (s.setDisp d).i = s.i := rfl
@[simp] theorem State.setDisp_pc (d : Display) : (s.setDisp d).pc = s.pc := rfl
@[simp] theorem State.setDisp_sp (d : Display) : (s.setDisp d).sp = s.sp := rfl
@[simp] theorem State.setDisp_stack (d : Display) : (s.setDisp d).stack = s.stack := rfl
@[simp] theorem State.setDisp_dt (d : Display) : (s.setDisp d).dt = s.dt := rfl
@[simp] theorem State.setDisp_st (d : Display) : (s.setDisp d).st = s.st := rfl
@[simp] theorem State.setDisp_disp (d : Display) : (s.setDisp d).disp = d := rfl
@[simp] theorem State.setDisp_key (d : Display) : (s.setDisp d).key = s.key := rfl
@[simp] theorem State.setDisp_run (d : Display) : (s.setDisp d).run = s.run := rfl
@[simp] theorem State.setDisp_params (d : Display) : (s.setDisp d).params = s.params := rfl
@[simp] theorem State.setDisp_draws (d : Display) : (s.setDisp d).draws = s.draws := rfl

/-! ### `writeKey` -/

@[simp] theorem State.writeKey_mem (k : Nibble) (p : Bool) : (s.writeKey k p).mem = s.mem := rfl
@[simp] theorem State.writeKey_v (k : Nibble) (p : Bool) : (s.writeKey k p).v = s.v := rfl
@[simp] theorem State.writeKey_i (k : Nibble) (p : Bool) : (s.writeKey k p).i = s.i := rfl
@[simp] theorem State.writeKey_pc (k : Nibble) (p : Bool) : (s.writeKey k p).pc = s.pc := rfl
@[simp] theorem State.writeKey_sp (k : Nibble) (p : Bool) : (s.writeKey k p).sp = s.sp := rfl
@[simp] theorem State.writeKey_stack (k : Nibble) (p : Bool) : (s.writeKey k p).stack = s.stack := rfl
@[simp] theorem State.writeKey_dt (k : Nibble) (p : Bool) : (s.writeKey k p).dt = s.dt := rfl
@[simp] theorem State.writeKey_st (k : Nibble) (p : Bool) : (s.writeKey k p).st = s.st := rfl
@[simp] theorem State.writeKey_disp (k : Nibble) (p : Bool) : (s.writeKey k p).disp = s.disp := rfl
@[simp] theorem State.writeKey_key (k : Nibble) (p : Bool) : (s.writeKey k p).key = s.key.set k p := rfl
@[simp] theorem State.writeKey_run (k : Nibble) (p : Bool) : (s.writeKey k p).run = s.run := rfl
@[simp] theorem State.writeKey_params (k : Nibble) (p : Bool) : (s.writeKey k p).params = s.params := rfl
@[simp] theorem State.writeKey_draws (k : Nibble) (p : Bool) : (s.writeKey k p).draws = s.draws := rfl

/-! ### `setRun` -/

@[simp] theorem State.setRun_mem (r : RunState) : (s.setRun r).mem = s.mem := rfl
@[simp] theorem State.setRun_v (r : RunState) : (s.setRun r).v = s.v := rfl
@[simp] theorem State.setRun_i (r : RunState) : (s.setRun r).i = s.i := rfl
@[simp] theorem State.setRun_pc (r : RunState) : (s.setRun r).pc = s.pc := rfl
@[simp] theorem State.setRun_sp (r : RunState) : (s.setRun r).sp = s.sp := rfl
@[simp] theorem State.setRun_stack (r : RunState) : (s.setRun r).stack = s.stack := rfl
@[simp] theorem State.setRun_dt (r : RunState) : (s.setRun r).dt = s.dt := rfl
@[simp] theorem State.setRun_st (r : RunState) : (s.setRun r).st = s.st := rfl
@[simp] theorem State.setRun_disp (r : RunState) : (s.setRun r).disp = s.disp := rfl
@[simp] theorem State.setRun_key (r : RunState) : (s.setRun r).key = s.key := rfl
@[simp] theorem State.setRun_run (r : RunState) : (s.setRun r).run = r := rfl
@[simp] theorem State.setRun_params (r : RunState) : (s.setRun r).params = s.params := rfl
@[simp] theorem State.setRun_draws (r : RunState) : (s.setRun r).draws = s.draws := rfl

/-! ### `setMem` -/

@[simp] theorem State.setMem_mem (m : Memory) : (s.setMem m).mem = m := rfl
@[simp] theorem State.setMem_v (m : Memory) : (s.setMem m).v = s.v := rfl
@[simp] theorem State.setMem_i (m : Memory) : (s.setMem m).i = s.i := rfl
@[simp] theorem State.setMem_pc (m : Memory) : (s.setMem m).pc = s.pc := rfl
@[simp] theorem State.setMem_sp (m : Memory) : (s.setMem m).sp = s.sp := rfl
@[simp] theorem State.setMem_stack (m : Memory) : (s.setMem m).stack = s.stack := rfl
@[simp] theorem State.setMem_dt (m : Memory) : (s.setMem m).dt = s.dt := rfl
@[simp] theorem State.setMem_st (m : Memory) : (s.setMem m).st = s.st := rfl
@[simp] theorem State.setMem_disp (m : Memory) : (s.setMem m).disp = s.disp := rfl
@[simp] theorem State.setMem_key (m : Memory) : (s.setMem m).key = s.key := rfl
@[simp] theorem State.setMem_run (m : Memory) : (s.setMem m).run = s.run := rfl
@[simp] theorem State.setMem_params (m : Memory) : (s.setMem m).params = s.params := rfl
@[simp] theorem State.setMem_draws (m : Memory) : (s.setMem m).draws = s.draws := rfl

/-! ### `countDraw` -/

@[simp] theorem State.countDraw_mem : (s.countDraw).mem = s.mem := rfl
@[simp] theorem State.countDraw_v : (s.countDraw).v = s.v := rfl
@[simp] theorem State.countDraw_i : (s.countDraw).i = s.i := rfl
@[simp] theorem State.countDraw_pc : (s.countDraw).pc = s.pc := rfl
@[simp] theorem State.countDraw_sp : (s.countDraw).sp = s.sp := rfl
@[simp] theorem State.countDraw_stack : (s.countDraw).stack = s.stack := rfl
@[simp] theorem State.countDraw_dt : (s.countDraw).dt = s.dt := rfl
@[simp] theorem State.countDraw_st : (s.countDraw).st = s.st := rfl
@[simp] theorem State.countDraw_disp : (s.countDraw).disp = s.disp := rfl
@[simp] theorem State.countDraw_key : (s.countDraw).key = s.key := rfl
@[simp] theorem State.countDraw_run : (s.countDraw).run = s.run := rfl
@[simp] theorem State.countDraw_params : (s.countDraw).params = s.params := rfl
@[simp] theorem State.countDraw_draws : (s.countDraw).draws = s.draws + 1 := rfl

/-! ### `reg` after an update of another component -/

@[simp] theorem State.setI_reg (w : Word) (r' : Nibble) : (s.setI w).reg r' = s.reg r' := rfl
@[simp] theorem State.setPc_reg (w : Word) (r' : Nibble) : (s.setPc w).reg r' = s.reg r' := rfl
@[simp] theorem State.setSp_reg (n : Byte) (r' : Nibble) : (s.setSp n).reg r' = s.reg r' := rfl
@[simp] theorem State.setSlot_reg (j : Nibble) (w : Word) (r' : Nibble) : (s.setSlot j w).reg r' = s.reg r' := rfl
@[simp] theorem State.setDt_reg (b : Byte) (r' : Nibble) : (s.setDt b).reg r' = s.reg r' := rfl
@[simp] theorem State.setSt_reg (b : Byte) (r' : Nibble) : (s.setSt b).reg r' = s.reg r' := rfl
@[simp] theorem State.setDisp_reg (d : Display) (r' : Nibble) : (s.setDisp d).reg r' = s.reg r' := rfl
@[simp] theorem State.writeKey_reg (k : Nibble) (p : Bool) (r' : Nibble) : (s.writeKey k p).reg r' = s.reg r' := rfl
@[simp] theorem State.setRun_reg (r : RunState) (r' : Nibble) : (s.setRun r).reg r' = s.reg r' := rfl
@[simp] theorem State.setMem_reg (m : Memory) (r' : Nibble) : (s.setMem m).reg r' = s.reg r' := rfl
@[simp] theorem State.countDraw_reg (r' : Nibble) : (s.countDraw).reg r' = s.reg r' := rfl

/-! ### `slot` after an update of another component -/

@[simp] theorem State.setReg_slot (r : Nibble) (b : Byte) (j' : Nibble) : (s.setReg r b).slot j' = s.slot j' := rfl
@[simp] theorem State.setI_slot (w : Word) (j' : Nibble) : (s.setI w).slot j' = s.slot j' := rfl
@[simp] theorem State.setPc_slot (w : Word) (j' : Nibble) : (s.setPc w).slot j' = s.slot j' := rfl
@[simp] theorem State.setSp_slot (n : Byte) (j' : Nibble) : (s.setSp n).slot j' = s.slot j' := rfl
@[simp] theorem State.setDt_slot (b : Byte) (j' : Nibble) : (s.setDt b).slot j' = s.slot j' := rfl
@[simp] theorem State.setSt_slot (b : Byte) (j' : Nibble) : (s.setSt b).slot j' = s.slot j' := rfl
@[simp] theorem State.setDisp_slot (d : Display) (j' : Nibble) : (s.setDisp d).slot j' = s.slot j' := rfl
@[simp] theorem State.writeKey_slot (k : Nibble) (p : Bool) (j' : Nibble) : (s.writeKey k p).slot j' = s.slot j' := rfl
@[simp] theorem State.setRun_slot (r : RunState) (j' : Nibble) : (s.setRun r).slot j' = s.slot j' := rfl
@[simp] theorem State.setMem_slot (m : Memory) (j' : Nibble) : (s.setMem m).slot j' = s.slot j' := rfl
@[simp] theorem State.countDraw_slot (j' : Nibble) : (s.countDraw).slot j' = s.slot j' := rfl

/-! ### `pressed` after an update of another component -/

@[simp] theorem State.setReg_pressed (r : Nibble) (b : Byte) (k' : Nibble) : (s.setReg r b).pressed k' = s.pressed k' := rfl
@[simp] theorem State.setI_pressed (w : Word) (k' : Nibble) : (s.setI w).pressed k' = s.pressed k' := rfl
@[simp] theorem State.setPc_pressed (w : Word) (k' : Nibble) : (s.setPc w).pressed k' = s.pressed k' := rfl
@[simp] theorem State.setSp_pressed (n : Byte) (k' : Nibble) : (s.setSp n).pressed k' = s.pressed k' := rfl
@[simp] theorem State.setSlot_pressed (j : Nibble) (w : Word) (k' : Nibble) : (s.setSlot j w).pressed k' = s.pressed k' := rfl
@[simp] theorem State.setDt_pressed (b : Byte) (k' : Nibble) : (s.setDt b).pressed k' = s.pressed k' := rfl
@[simp] theorem State.setSt_pressed (b : Byte) (k' : Nibble) : (s.setSt b).pressed k' = s.pressed k' := rfl
@[simp] theorem State.setDisp_pressed (d : Display) (k' : Nibble) : (s.setDisp d).pressed k' = s.pressed k' := rfl
@[simp] theorem State.setRun_pressed (r : RunState) (k' : Nibble) : (s.setRun r).pressed k' = s.pressed k' := rfl
@[simp] theorem State.setMem_pressed (m : Memory) (k' : Nibble) : (s.setMem m).pressed k' = s.pressed k' := rfl
@[simp] theorem State.countDraw_pressed (k' : Nibble) : (s.countDraw).pressed k' = s.pressed k' := rfl

/-! ### `byteAt` after an update of another component -/

@[simp] theorem State.setReg_byteAt (r : Nibble) (b : Byte) (a : Nat) : (s.setReg r b).byteAt a = s.byteAt a := rfl
@[simp] theorem State.setI_byteAt (w : Word) (a : Nat) : (s.setI w).byteAt a = s.byteAt a := rfl
@[simp] theorem State.setPc_byteAt (w : Word) (a : Nat) : (s.setPc w).byteAt a = s.byteAt a := rfl
@[simp] theorem State.setSp_byteAt (n : Byte) (a : Nat) : (s.setSp n).byteAt a = s.byteAt a := rfl
@[simp] theorem State.setSlot_byteAt (j : Nibble) (w : Word) (a : Nat) : (s.setSlot j w).byteAt a = s.byteAt a := rfl
@[simp] theorem State.setDt_byteAt (b : Byte) (a : Nat) : (s.setDt b).byteAt a = s.byteAt a := rfl
@[simp] theorem State.setSt_byteAt (b : Byte) (a : Nat) : (s.setSt b).byteAt a = s.byteAt a := rfl
@[simp] theorem State.setDisp_byteAt (d : Display) (a : Nat) : (s.setDisp d).byteAt a = s.byteAt a := rfl
@[simp] theorem State.writeKey_byteAt (k : Nibble) (p : Bool) (a : Nat) : (s.writeKey k p).byteAt a = s.byteAt a := rfl
@[simp] theorem State.setRun_byteAt (r : RunState) (a : Nat) : (s.setRun r).byteAt a = s.byteAt a := rfl
@[simp] theorem State.countDraw_byteAt (a : Nat) : (s.countDraw).byteAt a = s.byteAt a := rfl

/-! ### Accessors after an update of their own component -/

@[simp] theorem State.reg_setReg (r q : Nibble) (b : Byte) : (s.setReg r b).reg q = if q = r then b else s.reg q := by
  simp only [State.reg, State.setReg, Fin.getElem_fin, Vector.getElem_set, Fin.ext_iff, eq_comm]

@[simp] theorem State.slot_setSlot (j q : Nibble) (w : Word) : (s.setSlot j w).slot q = if q = j then w else s.slot q := by
  simp only [State.slot, State.setSlot, Fin.getElem_fin, Vector.getElem_set, Fin.ext_iff, eq_comm]

@[simp] theorem State.pressed_writeKey (k q : Nibble) (p : Bool) :
    (s.writeKey k p).pressed q = if q = k then p else s.pressed q := by
  simp only [State.pressed, State.writeKey, Fin.getElem_fin, Vector.getElem_set, Fin.ext_iff, eq_comm]

@[simp] theorem State.byteAt_setMem (m : Memory) (a : Nat) : (s.setMem m).byteAt a = m.read a := rfl

end Sys2Proof.Machine
end

