-- ==== Sys2Proof/Laws/Operands.lean ====
section
/-! SUPPORT. What the operand forms and the flag writes give. -/

namespace Sys2Proof.Machine

/-! ### The register run V0..Vx -/

theorem regsUpTo_eq_take (x : Nibble) : regsUpTo x = (List.finRange 16).take (x.val + 1) := by
  revert x; decide

theorem mem_regsUpTo {x r : Nibble} : r ∈ regsUpTo x ↔ r ≤ x := by simp [regsUpTo]

@[simp] theorem regsUpTo_length (x : Nibble) : (regsUpTo x).length = x.val + 1 := by
  have := x.isLt; simp only [regsUpTo_eq_take, List.length_take, List.length_finRange]; omega

theorem regsUpTo_nodup (x : Nibble) : (regsUpTo x).Nodup := (List.nodup_finRange 16).filter _

theorem regsUpTo_getElem (x : Nibble) (k : Nat) (h : k < (regsUpTo x).length) :
    (regsUpTo x)[k] = ⟨k, by have := x.isLt; rw [regsUpTo_length] at h; omega⟩ := by
  simp [regsUpTo_eq_take]

@[simp] theorem dumpBytes_length (x : Nibble) (s : State) : (dumpBytes x s).length = x.val + 1 := by simp [dumpBytes]

theorem dumpBytes_getElem (x : Nibble) (s : State) (k : Nat) (h : k < (dumpBytes x s).length) :
    (dumpBytes x s)[k] = s.reg ⟨k, by have := x.isLt; rw [dumpBytes_length] at h; omega⟩ := by
  simp [dumpBytes, regsUpTo_getElem]

/-- A register that is not loaded is as before. -/
theorem loadRegs_reg_of_not_mem {rs : List Nibble} {bs : List Byte} {s : State} {q : Nibble} (h : q ∉ rs) :
    (loadRegs s rs bs).reg q = s.reg q := by
  induction rs generalizing s bs with
  | nil => rfl
  | cons r rs ih =>
    cases bs with
    | nil => rfl
    | cons b bs =>
      simp only [List.mem_cons, not_or] at h
      rw [loadRegs, ih h.2, State.reg_setReg, if_neg h.1]

/-- The k-th register of the list gets the k-th byte. -/
theorem loadRegs_reg {rs : List Nibble} {bs : List Byte} {s : State} (hn : rs.Nodup) (k : Nat) (h : k < rs.length)
    (h' : k < bs.length) : (loadRegs s rs bs).reg rs[k] = bs[k] := by
  induction rs generalizing s bs k with
  | nil => simp at h
  | cons r rs ih =>
    cases bs with
    | nil => simp at h'
    | cons b bs =>
      rw [List.nodup_cons] at hn
      cases k with
      | zero => simp only [loadRegs, List.getElem_cons_zero, loadRegs_reg_of_not_mem hn.1, State.reg_setReg, if_true]
      | succ k => simpa [loadRegs] using ih hn.2 k (by simpa using h) (by simpa using h')

/-- Loading registers changes nothing but the registers. -/
theorem loadRegs_eq (s : State) (rs : List Nibble) (bs : List Byte) :
    loadRegs s rs bs = { s with v := (loadRegs s rs bs).v } := by
  induction rs generalizing s bs with
  | nil => rfl
  | cons r rs ih =>
    cases bs with
    | nil => rfl
    | cons b bs => rw [loadRegs, ih]; rfl

theorem finishIndex_eq (x : Nibble) (s : State) : finishIndex x s = { s with i := (finishIndex x s).i } := by
  unfold finishIndex; split <;> rfl

/-! ### Key numbers and font digits -/

theorem keyIndex_ok {v : Byte} {s : State} {k : Nibble} (h : v.toNat = k.val ∨ (s.params.keyRange = .mask ∧ v.toNat % 16 = k.val)) :
    keyIndex v s = .ok k := by
  have hk := k.isLt
  have e : lowNibble v = k := Fin.ext (by simp only [lowNibble]; omega)
  unfold keyIndex
  split
  · rw [e]
  · rcases h with h | h
    · omega
    · simp only [h.1, e]

theorem keyIndex_error {v : Byte} {s : State} (h : 15 < v.toNat) (hp : s.params.keyRange = .fault) :
    keyIndex v s = .error (.keyOutOfRange v (instrAddr s)) := by
  unfold keyIndex; rw [if_neg (by omega)]; simp only [hp]

theorem fontDigit_error {d : Byte} {s : State} (h : 15 < d.toNat) (hp : s.params.fontDigit = .fault) :
    fontDigit d s = .error (.fontDigitOutOfRange d (instrAddr s)) := by
  unfold fontDigit; rw [if_neg (by omega)]; simp only [hp]

/-- The error of a key number, if any, is the one R222 names. -/
theorem keyIndex_error_cases {v : Byte} {s : State} {e : Error} (h : keyIndex v s = .error e) :
    e = .keyOutOfRange v (instrAddr s) := by
  unfold keyIndex at h
  split at h
  · cases h
  · split at h
    · exact (Except.error.inj h).symm
    · cases h

/-- The error of a font digit, if any, is the one R242 names. -/
theorem fontDigit_error_cases {d : Byte} {s : State} {e : Error} (h : fontDigit d s = .error e) :
    e = .fontDigitOutOfRange d (instrAddr s) := by
  unfold fontDigit at h
  split at h
  · cases h
  · split at h
    · exact (Except.error.inj h).symm
    · cases h
    · cases h

/-! ### Flags -/

theorem flagByte_toNat (c : Bool) : (flagByte c).toNat = if c then 1 else 0 := by cases c <;> rfl

/-- The result goes to Vx first and the flag to VF last. -/
theorem writeWithFlag_reg (x q : Nibble) (r : Byte) (f : Bool) (s : State) :
    (writeWithFlag x r f s).reg q = if q = 15 then flagByte f else if q = x then r else s.reg q := by
  simp only [writeWithFlag, setFlag, vf, State.reg_setReg]

theorem writeWithFlag_eq (x : Nibble) (r : Byte) (f : Bool) (s : State) :
    writeWithFlag x r f s = { s with v := (writeWithFlag x r f s).v } := rfl

theorem writeLogic_reg (x q : Nibble) (r : Byte) (s : State) :
    (writeLogic x r s).reg q =
      if q = 15 ∧ s.params.logicVf = .reset then 0 else if q = x then r else s.reg q := by
  unfold writeLogic
  split <;> rename_i h <;> simp only [h, vf, State.reg_setReg] <;> split <;> simp_all

theorem writeLogic_eq (x : Nibble) (r : Byte) (s : State) : writeLogic x r s = { s with v := (writeLogic x r s).v } := by
  unfold writeLogic; split <;> rfl

end Sys2Proof.Machine
end

