-- ==== Sys2Proof/Laws/Memory.lean ====
section
/-! SUPPORT. The laws of the byte store: reading after writing, and that every operation keeps the canonical form. -/

namespace Sys2Proof.Machine

/-- Every listed address is at least `lo`. -/
abbrev Memory.startsAt (lo : Nat) (m : Memory) : Prop := ∀ c ∈ m, lo ≤ c.1

theorem Memory.read_of_not_listed {m : Memory} {a : Nat} (h : ∀ c ∈ m, c.1 ≠ a) : m.read a = unlistedByte a := by
  induction m with
  | nil => rfl
  | cons c m ih =>
    have hc : a ≠ c.1 := fun e => h c (by simp) e.symm
    simpa [Memory.read, hc] using ih fun d hd => h d (by simp [hd])

theorem Memory.read_of_mem {m : Memory} (h : m.Pairwise fun c d => c.1 < d.1) {c : Host.Cell} (hc : c ∈ m) :
    m.read c.1 = c.2 := by
  induction m with
  | nil => simp at hc
  | cons d m ih =>
    rw [List.pairwise_cons] at h
    rcases List.mem_cons.mp hc with rfl | hm
    · simp [Memory.read]
    · have : c.1 ≠ d.1 := (h.1 c hm).ne'
      simpa [Memory.read, this] using ih h.2 hm

theorem Memory.read_put (m : Memory) (a b : Nat) (v : Byte) : (m.put a v).read b = if b = a then v else m.read b := by
  induction m with
  | nil => simp [Memory.put, Memory.read]
  | cons c m ih =>
    simp only [Memory.put]
    split
    · simp [Memory.read]
    · split
      · rename_i h; subst h; simp only [Memory.read]; split <;> rfl
      · simp only [Memory.read, ih]
        split <;> split <;> simp_all

theorem Memory.read_unlist (m : Memory) (a b : Nat) :
    (m.unlist a).read b = if b = a then unlistedByte a else m.read b := by
  induction m with
  | nil => simp only [Memory.unlist, List.filter_nil, Memory.read]; split <;> simp_all
  | cons c m ih =>
    simp only [Memory.unlist] at ih ⊢
    by_cases hc : c.1 = a
    · simp only [List.filter_cons, hc, bne_self_eq_false, Bool.false_eq_true, if_false, ih, Memory.read]
      split <;> simp_all
    · simp only [List.filter_cons, bne_iff_ne, ne_eq, hc, not_false_eq_true, if_true, Memory.read, ih]
      split <;> split <;> simp_all

/-- Reading after a write: the byte written at its address, every other byte as before. -/
theorem Memory.read_write (m : Memory) (a b : Nat) (v : Byte) :
    (m.write a v).read b = if b = a then v else m.read b := by
  unfold Memory.write
  split
  · rename_i h; rw [Memory.read_unlist, h]
  · exact Memory.read_put m a b v

theorem Memory.mem_put {m : Memory} {a : Nat} {v : Byte} {c : Host.Cell} (h : c ∈ m.put a v) : c = (a, v) ∨ c ∈ m := by
  induction m with
  | nil => simpa [Memory.put] using h
  | cons d m ih =>
    simp only [Memory.put] at h
    split at h
    · simpa using h
    · split at h
      · rcases List.mem_cons.mp h with h | h
        · exact .inl h
        · exact .inr (by simp [h])
      · rcases List.mem_cons.mp h with h | h
        · exact .inr (by simp [h])
        · exact (ih h).imp_right fun h => by simp [h]

theorem Memory.pairwise_put {m : Memory} (h : m.Pairwise fun c d => c.1 < d.1) (a : Nat) (v : Byte) :
    (m.put a v).Pairwise fun c d => c.1 < d.1 := by
  induction m with
  | nil => simp [Memory.put]
  | cons d m ih =>
    have hd := List.pairwise_cons.mp h
    simp only [Memory.put]
    split
    · rename_i hlt
      refine List.pairwise_cons.mpr ⟨fun c hc => ?_, h⟩
      rcases List.mem_cons.mp hc with rfl | hc
      · exact hlt
      · exact hlt.trans (hd.1 c hc)
    · split
      · rename_i _ heq
        exact List.pairwise_cons.mpr ⟨fun c hc => by simpa [heq] using hd.1 c hc, hd.2⟩
      · refine List.pairwise_cons.mpr ⟨fun c hc => ?_, ih hd.2⟩
        rcases Memory.mem_put hc with rfl | hc
        · simp only; omega
        · exact hd.1 c hc

/-- A write inside 0x000..0xFFF keeps the canonical form. -/
theorem Memory.write_wf {m : Memory} (h : m.wf) {a : Nat} (ha : a ≤ 0xFFF) (v : Byte) : (m.write a v).wf := by
  unfold Memory.write
  split
  · exact ⟨h.1.filter _, fun c hc => h.2 c (List.mem_filter.mp hc).1⟩
  · rename_i hv
    refine ⟨Memory.pairwise_put h.1 a v, fun c hc => ?_⟩
    rcases Memory.mem_put hc with rfl | hc
    · exact ⟨ha, hv⟩
    · exact h.2 c hc

theorem Memory.nil_wf : Memory.wf [] := by simp [Memory.wf]

/-- Two stores in canonical form that read alike are the same list. -/
theorem Memory.ext_of_read {m n : Memory} (hm : m.wf) (hn : n.wf) (h : ∀ a, m.read a = n.read a) : m = n := by
  have key : ∀ {p q : Memory}, p.wf → q.wf → (∀ a, p.read a = q.read a) → ∀ c ∈ p, c ∈ q := by
    intro p q hp hq hpq c hc
    by_contra hcq
    by_cases hl : ∃ d ∈ q, d.1 = c.1
    · obtain ⟨d, hd, hdc⟩ := hl
      have h1 := Memory.read_of_mem hp.1 hc
      have h2 := Memory.read_of_mem hq.1 hd
      rw [hpq, ← hdc, h2] at h1
      exact hcq (by rwa [show c = d from Prod.ext hdc.symm h1.symm])
    · have h1 := Memory.read_of_mem hp.1 hc
      rw [hpq, Memory.read_of_not_listed fun d hd e => hl ⟨d, hd, e⟩] at h1
      exact (hp.2 c hc).2 h1.symm
  refine List.Perm.eq_of_pairwise (le := fun c d => c.1 < d.1) (fun c d _ _ h1 h2 => absurd h1 h2.not_gt) hm.1 hn.1 ?_
  refine (List.perm_ext_iff_of_nodup ?_ ?_).mpr fun c => ⟨key hm hn h c, key hn hm (fun a => (h a).symm) c⟩
  · exact hm.1.imp fun {c d} hlt e => by simp [e] at hlt
  · exact hn.1.imp fun {c d} hlt e => by simp [e] at hlt

/-! ### Runs of bytes -/

@[simp] theorem readBytes_length (m : Memory) (start n : Nat) : (readBytes m start n).length = n := by simp [readBytes]

theorem readBytes_getElem (m : Memory) (start n k : Nat) (h : k < (readBytes m start n).length) :
    (readBytes m start n)[k] = m.read (start + k) := by simp [readBytes]

/-- Reading after a run of bytes is written: the k-th byte at `start + k`, every other byte as before. -/
theorem read_writeBytes (bs : List Byte) (m : Memory) (start a : Nat) :
    (writeBytes m start bs).read a = if h : start ≤ a ∧ a - start < bs.length then bs[a - start]'h.2 else m.read a := by
  induction bs generalizing m start with
  | nil => simp [writeBytes]
  | cons b bs ih =>
    rw [writeBytes, ih]
    rcases Nat.lt_trichotomy a start with h | h | h
    · have h1 : ¬(start + 1 ≤ a ∧ a - (start + 1) < bs.length) := by omega
      have h2 : ¬(start ≤ a ∧ a - start < (b :: bs).length) := by omega
      rw [dif_neg h1, dif_neg h2, Memory.read_write, if_neg (by omega)]
    · subst h
      rw [dif_neg (by omega), Memory.read_write, if_pos rfl, dif_pos ⟨le_rfl, by simp⟩]
      simp
    · by_cases hl : a - (start + 1) < bs.length
      · rw [dif_pos ⟨by omega, hl⟩, dif_pos ⟨by omega, by simp only [List.length_cons]; omega⟩]
        have e : a - start = a - (start + 1) + 1 := by omega
        simp only [e, List.getElem_cons_succ]
      · rw [dif_neg (by omega), dif_neg (by simp only [List.length_cons]; omega), Memory.read_write, if_neg (by omega)]

/-- A byte outside the run is as before. -/
theorem read_writeBytes_outside {bs : List Byte} {m : Memory} {start a : Nat} (h : a < start ∨ start + bs.length ≤ a) :
    (writeBytes m start bs).read a = m.read a := by
  rw [read_writeBytes, dif_neg (by omega)]

/-- A run of bytes inside 0x000..0xFFF keeps the canonical form. -/
theorem writeBytes_wf {bs : List Byte} {m : Memory} {start : Nat} (hm : m.wf) (h : start + bs.length ≤ 0x1000) :
    (writeBytes m start bs).wf := by
  induction bs generalizing m start with
  | nil => exact hm
  | cons b bs ih =>
    simp only [List.length_cons] at h
    exact ih (Memory.write_wf hm (by omega) b) (by omega)

end Sys2Proof.Machine
end

