-- ==== Sys2Proof/Laws/Ops.lean ====
section
/-! SUPPORT. What each shared operation can do, said once: the checks of a memory range, the fetch, the stack's slots, raising an
error. -/

namespace Sys2Proof.Machine

/-! ### Errors -/

@[simp] theorem raiseError_eq (e : Error) (s : State) : raiseError e s = .next (s.setRun (.faulted e)) := rfl

@[simp] theorem orRaise_ok {α : Type} (a : α) (s : State) (k : α → Result) : orRaise (.ok a) s k = k a := rfl

@[simp] theorem orRaise_error {α : Type} (e : Error) (s : State) (k : α → Result) :
    orRaise (.error e) s k = .next (s.setRun (.faulted e)) := rfl

/-- `orRaise` either goes on with the value or takes the error. -/
theorem orRaise_cases {α : Type} {r : Except Error α} {s t : State} {k : α → Result} (h : orRaise r s k = .next t) :
    (∃ a, r = .ok a ∧ k a = .next t) ∨ (∃ e, r = .error e ∧ t = s.setRun (.faulted e)) := by
  cases r with
  | ok a => exact .inl ⟨a, rfl, h⟩
  | error e => exact .inr ⟨e, rfl, by simpa using h.symm⟩

/-! ### Memory ranges -/

/-- The read check of a range (R57, R59): the lowest failing address is I itself or 0x1000. -/
theorem firstError_readError (start n : Nat) :
    firstError readError start n =
      if n = 0 ∨ start + n ≤ 0x1000 then none else some (.outOfBounds (if start ≤ 0xFFF then 0x1000 else start)) := by
  induction n generalizing start with
  | zero => simp [firstError]
  | succ n ih =>
    simp only [firstError, readError]
    by_cases h : start > 0xFFF
    · rw [if_pos h, if_neg (by omega), if_neg (by omega)]
    · rw [if_neg h]
      simp only [ih]
      rcases Nat.lt_or_ge (start + n) 0x1000 with h2 | h2
      · simp only [show n = 0 ∨ start + 1 + n ≤ 0x1000 by omega, show n + 1 = 0 ∨ start + (n + 1) ≤ 0x1000 by omega, if_true]
      · have h3 : ¬(n = 0 ∨ start + 1 + n ≤ 0x1000) := by omega
        have h4 : ¬(n + 1 = 0 ∨ start + (n + 1) ≤ 0x1000) := by omega
        have e : (if start + 1 ≤ 0xFFF then 0x1000 else start + 1) = 0x1000 := by split <;> omega
        have e' : (if start ≤ 0xFFF then 0x1000 else start) = 0x1000 := if_pos (by omega)
        simp only [if_neg h3, if_neg h4, e, e']

/-- The write check of a range at or above 0x200, or with the reserved region open (R58, R59). -/
theorem firstError_writeError_high {p : Params} (start n : Nat) (h : 0x200 ≤ start ∨ p.reservedWrite = .allow) :
    firstError (writeError p) start n =
      if n = 0 ∨ start + n ≤ 0x1000 then none else some (.outOfBounds (if start ≤ 0xFFF then 0x1000 else start)) := by
  rw [← firstError_readError]
  induction n generalizing start with
  | zero => rfl
  | succ n ih =>
    have e : writeError p start = readError start := by
      have hr : ¬(start < 0x200 ∧ p.reservedWrite = .fault) := by
        rintro ⟨h1, h2⟩
        rcases h with h | h
        · omega
        · rw [h] at h2; cases h2
      simp only [writeError, readError, if_neg hr]
    simp only [firstError, e, ih (start + 1) (h.imp_left fun h => by omega)]

/-- The write check of a range that starts in the closed reserved region (R58, R59). -/
theorem firstError_writeError_low {p : Params} {start n : Nat} (h : start < 0x200) (hp : p.reservedWrite = .fault) (hn : n ≠ 0) :
    firstError (writeError p) start n = some (.reservedWrite start) := by
  obtain ⟨n, rfl⟩ := Nat.exists_eq_succ_of_ne_zero hn
  simp only [firstError, writeError, if_neg (show ¬start > 0xFFF by omega), if_pos (And.intro h hp)]

theorem readRange_ok {start n : Nat} (h : n = 0 ∨ start + n ≤ 0x1000) (s : State) :
    readRange start n s = .ok (readBytes s.mem start n) := by
  simp only [readRange, firstError_readError, if_pos h]

theorem readRange_error {start n : Nat} (h : ¬(n = 0 ∨ start + n ≤ 0x1000)) (s : State) :
    readRange start n s = .error (.outOfBounds (if start ≤ 0xFFF then 0x1000 else start)) := by
  simp only [readRange, firstError_readError, if_neg h]

/-- A range is read iff all of it lies in memory. -/
theorem readRange_cases {start n : Nat} {s : State} {bs : List Byte} (h : readRange start n s = .ok bs) :
    (n = 0 ∨ start + n ≤ 0x1000) ∧ bs = readBytes s.mem start n := by
  by_cases hn : n = 0 ∨ start + n ≤ 0x1000
  · rw [readRange_ok hn] at h; exact ⟨hn, (Except.ok.inj h).symm⟩
  · rw [readRange_error hn] at h; cases h

theorem writeRange_ok {start : Nat} {bs : List Byte} {s : State} (h : bs.length = 0 ∨ start + bs.length ≤ 0x1000)
    (hr : 0x200 ≤ start ∨ s.params.reservedWrite = .allow) :
    writeRange start bs s = .ok (s.setMem (writeBytes s.mem start bs)) := by
  simp only [writeRange, firstError_writeError_high _ _ hr, if_pos h]

theorem writeRange_outOfBounds {start : Nat} {bs : List Byte} {s : State} (hn : bs.length ≠ 0) (h : 0x1000 < start + bs.length)
    (hr : 0x200 ≤ start ∨ s.params.reservedWrite = .allow) :
    writeRange start bs s = .error (.outOfBounds (if start ≤ 0xFFF then 0x1000 else start)) := by
  simp only [writeRange, firstError_writeError_high _ _ hr,
    if_neg (show ¬(bs.length = 0 ∨ start + bs.length ≤ 0x1000) by omega)]

theorem writeRange_reserved {start : Nat} {bs : List Byte} {s : State} (hn : bs.length ≠ 0) (h : start < 0x200)
    (hp : s.params.reservedWrite = .fault) : writeRange start bs s = .error (.reservedWrite start) := by
  simp only [writeRange, firstError_writeError_low h hp hn]

/-- A range is written iff all of it lies in memory and outside a closed reserved region. -/
theorem writeRange_cases {start : Nat} {bs : List Byte} {s t : State} (h : writeRange start bs s = .ok t) :
    (bs.length = 0 ∨ (start + bs.length ≤ 0x1000 ∧ (0x200 ≤ start ∨ s.params.reservedWrite = .allow))) ∧
      t = s.setMem (writeBytes s.mem start bs) := by
  by_cases hn : bs.length = 0
  · obtain rfl := List.length_eq_zero_iff.mp hn
    exact ⟨.inl rfl, by simpa [writeRange, firstError] using h.symm⟩
  by_cases hr : 0x200 ≤ start ∨ s.params.reservedWrite = .allow
  · by_cases hl : start + bs.length ≤ 0x1000
    · rw [writeRange_ok (.inr hl) hr] at h
      exact ⟨.inr ⟨hl, hr⟩, (Except.ok.inj h).symm⟩
    · rw [writeRange_outOfBounds hn (by omega) hr] at h; cases h
  · rw [not_or] at hr
    have : s.params.reservedWrite = .fault := by
      cases e : s.params.reservedWrite with
      | fault => rfl
      | allow => exact absurd e hr.2
    rw [writeRange_reserved hn (by omega) this] at h; cases h

/-! ### Fetch -/

theorem not_fetchable {p : Params} {a : Nat} (h : ¬fetchable p a) : 0xFFF < a + 1 ∨ (a < 0x200 ∧ p.lowFetch = .fault) := by
  by_cases h1 : 0xFFF < a + 1
  · exact .inl h1
  · refine .inr ⟨?_, ?_⟩
    · by_contra h2; exact h ⟨by omega, .inl (by omega)⟩
    · cases e : p.lowFetch with
      | fault => rfl
      | allow => exact absurd ⟨by omega, .inr e⟩ h

/-- A fetch succeeds exactly where R111 lets it, and reads the two bytes at PC, the first the high byte. -/
theorem fetch_ok {s : State} (h : fetchable s.params s.pc.toNat) :
    fetch s = .ok (wordOfBytes (s.byteAt s.pc.toNat) (s.byteAt (s.pc.toNat + 1))) := by
  have h1 : ¬(s.pc.toNat < 0x200 ∧ s.params.lowFetch = .fault) := by
    rintro ⟨h1, h2⟩
    rcases h.2 with h3 | h3
    · omega
    · rw [h3] at h2; cases h2
  unfold fetch
  rw [if_neg (by have := h.1; omega), if_neg h1]

theorem fetch_ok_iff {s : State} {w : Word} :
    fetch s = .ok w ↔ fetchable s.params s.pc.toNat ∧ w = wordOfBytes (s.byteAt s.pc.toNat) (s.byteAt (s.pc.toNat + 1)) := by
  constructor
  · intro h
    by_cases hf : fetchable s.params s.pc.toNat
    · rw [fetch_ok hf] at h; exact ⟨hf, (Except.ok.inj h).symm⟩
    · unfold fetch at h
      rcases not_fetchable hf with h1 | h1
      · rw [if_pos h1] at h; cases h
      · by_cases h2 : s.pc.toNat + 1 > 0xFFF
        · rw [if_pos h2] at h; cases h
        · rw [if_neg h2, if_pos h1] at h; cases h
  · rintro ⟨h, rfl⟩; exact fetch_ok h

theorem fetch_outOfBounds {s : State} (h : 0xFFF < s.pc.toNat + 1) : fetch s = .error (.fetchOutOfBounds s.pc) := by
  unfold fetch; rw [if_pos h]

theorem fetch_below {s : State} (h : s.pc.toNat < 0x200) (hp : s.params.lowFetch = .fault) :
    fetch s = .error (.pcBelowProgram s.pc) := by
  unfold fetch; rw [if_neg (by omega), if_pos ⟨h, hp⟩]

/-- A fetch that fails raises one of its two errors. -/
theorem fetch_error_cases {s : State} {e : Error} (h : fetch s = .error e) :
    ¬fetchable s.params s.pc.toNat ∧ (e = .fetchOutOfBounds s.pc ∨ e = .pcBelowProgram s.pc) := by
  have hf : ¬fetchable s.params s.pc.toNat := fun hf => by rw [fetch_ok hf] at h; cases h
  refine ⟨hf, ?_⟩
  by_cases h1 : 0xFFF < s.pc.toNat + 1
  · rw [fetch_outOfBounds h1] at h; exact .inl (Except.error.inj h).symm
  · rcases not_fetchable hf with h2 | h2
    · exact absurd h2 h1
    · rw [fetch_below h2.1 h2.2] at h; exact .inr (Except.error.inj h).symm

/-! ### The program counter -/

theorem advancePc_eq (s : State) : advancePc s = { s with pc := s.pc + 2 } := rfl

@[simp] theorem instrAddr_of_pc {s : State} {a : Word} (h : s.pc = a + 2) : instrAddr s = a := by
  unfold instrAddr; rw [h]; exact BitVec.add_sub_cancel a 2

/-- The pre-increment never wraps (R112). -/
theorem pc_add_two {w : Word} (h : w.toNat + 2 < 65536) : (w + 2).toNat = w.toNat + 2 := by
  bv_omega

/-! ### Stack slots -/

theorem stackSlot_some {j : Byte} (h : j.toNat < 16) : stackSlot j = some ⟨j.toNat, h⟩ := dif_pos h

theorem stackSlot_none {j : Byte} (h : 16 ≤ j.toNat) : stackSlot j = none := dif_neg (by omega)

theorem pushAddr_ok {s : State} (h : s.sp.toNat < 16) (w : Word) (k : State → Result) :
    pushAddr w s k = k ((s.setSlot ⟨s.sp.toNat, h⟩ w).setSp (s.sp + 1)) := by
  simp only [pushAddr, stackSlot_some h]

theorem pushAddr_cases {s t : State} {w : Word} {k : State → Result} (h : pushAddr w s k = .next t) :
    ∃ hs : s.sp.toNat < 16, k ((s.setSlot ⟨s.sp.toNat, hs⟩ w).setSp (s.sp + 1)) = .next t := by
  by_cases hs : s.sp.toNat < 16
  · exact ⟨hs, by rwa [pushAddr_ok hs] at h⟩
  · simp only [pushAddr, stackSlot_none (by omega : 16 ≤ s.sp.toNat)] at h; cases h

theorem popAddr_ok {s : State} (h : (s.sp - 1).toNat < 16) (k : Word → State → Result) :
    popAddr s k = k (s.slot ⟨(s.sp - 1).toNat, h⟩) (s.setSp (s.sp - 1)) := by
  simp only [popAddr, stackSlot_some h]

theorem popAddr_cases {s t : State} {k : Word → State → Result} (h : popAddr s k = .next t) :
    ∃ hs : (s.sp - 1).toNat < 16, k (s.slot ⟨(s.sp - 1).toNat, hs⟩) (s.setSp (s.sp - 1)) = .next t := by
  by_cases hs : (s.sp - 1).toNat < 16
  · exact ⟨hs, by rwa [popAddr_ok hs] at h⟩
  · simp only [popAddr, stackSlot_none (by omega : 16 ≤ (s.sp - 1).toNat)] at h; cases h

theorem sp_sub_one {n : Byte} (h : n ≠ 0) : (n - 1).toNat = n.toNat - 1 := by
  have := n.isLt
  have h0 : n.toNat ≠ 0 := fun e => h (BitVec.eq_of_toNat_eq e)
  bv_omega

theorem sp_add_one {n : Byte} (h : n.toNat < 255) : (n + 1).toNat = n.toNat + 1 := by
  bv_omega

end Sys2Proof.Machine
end

