-- ==== Sys2Proof/Laws/Exec.lean ====
section
/-! SUPPORT. What an instruction and a step can do, said once: either the error's entry, or the one state the instruction completes in. -/

namespace Sys2Proof.Machine

/-! ### Decoding an illegal word -/

theorem decode8_error {w : Word} {e : DecodeError} (h : decode8 w = .error e) : e = .illegal w := by
  unfold decode8 at h; split at h <;> simp_all

theorem decodeE_error {w : Word} {e : DecodeError} (h : decodeE w = .error e) : e = .illegal w := by
  unfold decodeE at h; split at h <;> simp_all

theorem decodeF_error {w : Word} {e : DecodeError} (h : decodeF w = .error e) : e = .illegal w := by
  unfold decodeF at h; split at h <;> simp_all

/-- A word the decoder rejects is rejected as illegal (R84). -/
theorem decode_error {w : Word} {e : DecodeError} (h : decode w = .error e) : e = .illegal w := by
  unfold decode at h
  split at h <;> first | exact decode8_error h | exact decodeE_error h | exact decodeF_error h | cases h

/-! ### One instruction -/

/-- The state an instruction completes in, without an error. -/
def Completes : Instr → State → State → Prop
  | .cls, s, t => t = s.setDisp clearDisplay
  | .ret, s, t => s.sp ≠ 0 ∧ ∃ h : (s.sp - 1).toNat < 16, t = (s.setSp (s.sp - 1)).setPc (s.slot ⟨(s.sp - 1).toNat, h⟩)
  | .sys _, s, t => s.params.sys = .nop ∧ t = s
  | .jp nnn, s, t => t = s.setPc (zext16 nnn)
  | .call nnn, s, t => ∃ h : s.sp.toNat < 16, t = ((s.setSlot ⟨s.sp.toNat, h⟩ s.pc).setSp (s.sp + 1)).setPc (zext16 nnn)
  | .seVxKk x kk, s, t => t = skipIf (s.reg x == kk) s
  | .sneVxKk x kk, s, t => t = skipIf (s.reg x != kk) s
  | .seVxVy x y, s, t => t = skipIf (s.reg x == s.reg y) s
  | .sneVxVy x y, s, t => t = skipIf (s.reg x != s.reg y) s
  | .ldVxKk x kk, s, t => t = s.setReg x kk
  | .addVxKk x kk, s, t => t = s.setReg x (u8 ((s.reg x).toNat + kk.toNat))
  | .ldVxVy x y, s, t => t = s.setReg x (s.reg y)
  | .orVxVy x y, s, t => t = writeLogic x (s.reg x ||| s.reg y) s
  | .andVxVy x y, s, t => t = writeLogic x (s.reg x &&& s.reg y) s
  | .xorVxVy x y, s, t => t = writeLogic x (s.reg x ^^^ s.reg y) s
  | .addVxVy x y, s, t =>
    t = writeWithFlag x (u8 ((s.reg x).toNat + (s.reg y).toNat)) (carryFlag (s.reg x) (s.reg y)) s
  | .subVxVy x y, s, t =>
    t = writeWithFlag x (u8 ((s.reg x).toNat + 256 - (s.reg y).toNat)) (noBorrowFlag (s.reg x) (s.reg y)) s
  | .subnVxVy x y, s, t =>
    t = writeWithFlag x (u8 ((s.reg y).toNat + 256 - (s.reg x).toNat)) (noBorrowFlag (s.reg y) (s.reg x)) s
  | .shrVxVy x y, s, t => t = writeWithFlag x (shiftOperand x y s >>> 1) (shiftedOutRight (shiftOperand x y s)) s
  | .shlVxVy x y, s, t => t = writeWithFlag x (shiftOperand x y s <<< 1) (shiftedOutLeft (shiftOperand x y s)) s
  | .ldI nnn, s, t => t = s.setI (zext16 nnn)
  | .jpV0 nnn, s, t => t = s.setPc (zext16 nnn + zext16 (s.reg 0))
  | .rnd x kk, s, t => t = (s.setReg x (drawRand s &&& kk)).countDraw
  | .drw x y n, s, t => (n.val = 0 ∨ s.i.toNat + n.val ≤ 0x1000) ∧
    t = setFlag (drawSprite (s.reg x) (s.reg y) (readBytes s.mem s.i.toNat n.val) s.disp).2
      (s.setDisp (drawSprite (s.reg x) (s.reg y) (readBytes s.mem s.i.toNat n.val) s.disp).1)
  | .skp x, s, t => ∃ k, keyIndex (s.reg x) s = .ok k ∧ t = skipIf (s.pressed k) s
  | .sknp x, s, t => ∃ k, keyIndex (s.reg x) s = .ok k ∧ t = skipIf (!s.pressed k) s
  | .ldVxDt x, s, t => t = s.setReg x s.dt
  | .ldVxK x, s, t => t = (s.setRun (.waitingForKey x)).setPc (instrAddr s)
  | .ldDtVx x, s, t => t = s.setDt (s.reg x)
  | .ldStVx x, s, t => t = s.setSt (s.reg x)
  | .addIVx x, s, t => t = s.setI (u16 (s.i.toNat + (s.reg x).toNat))
  | .ldFVx x, s, t => ∃ d, fontDigit (s.reg x) s = .ok d ∧ t = s.setI (fontAddress d s)
  | .ldBVx x, s, t => (s.i.toNat + 3 ≤ 0x1000 ∧ (0x200 ≤ s.i.toNat ∨ s.params.reservedWrite = .allow)) ∧
    t = s.setMem (writeBytes s.mem s.i.toNat (bcdDigits (s.reg x)))
  | .ldMemVx x, s, t => (s.i.toNat + (x.val + 1) ≤ 0x1000 ∧ (0x200 ≤ s.i.toNat ∨ s.params.reservedWrite = .allow)) ∧
    t = finishIndex x (s.setMem (writeBytes s.mem s.i.toNat (dumpBytes x s)))
  | .ldVxMem x, s, t => s.i.toNat + (x.val + 1) ≤ 0x1000 ∧
    t = finishIndex x (loadRegs s (regsUpTo x) (readBytes s.mem s.i.toNat (x.val + 1)))

/-- The error a memory range raises is one of the two of R57, R58. -/
theorem readRange_error_code {start n : Nat} {s : State} {e : Error} (h : readRange start n s = .error e) : errorCode e ≠ 1 := by
  by_cases hn : n = 0 ∨ start + n ≤ 0x1000
  · rw [readRange_ok hn] at h; cases h
  · rw [readRange_error hn] at h; cases h; simp [errorCode]

theorem writeRange_error_code {start : Nat} {bs : List Byte} {s : State} {e : Error} (h : writeRange start bs s = .error e) :
    errorCode e ≠ 1 := by
  have key : ∀ n a, firstError (writeError s.params) a n = some e → errorCode e ≠ 1 := by
    intro n
    induction n with
    | zero => intro a h; simp [firstError] at h
    | succ n ih =>
      intro a h
      simp only [firstError] at h
      split at h
      · rename_i e' he
        cases h
        unfold writeError at he
        split at he
        · cases he; simp [errorCode]
        · split at he
          · cases he; simp [errorCode]
          · cases he
      · exact ih _ h
  unfold writeRange at h
  split at h
  · rename_i e' he; cases h; exact key _ _ he
  · cases h

/-- An instruction that answers a next state either took an error, changing RUN alone (R262), or completed. -/
theorem exec_cases {i : Instr} {s t : State} (h : exec i s = .next t) :
    (∃ e, errorCode e ≠ 1 ∧ t = s.setRun (.faulted e)) ∨ Completes i s t := by
  have plain : ∀ {u : State}, (Host.Outcome.next u : Result) = .next t → t = u := fun h => (Host.Outcome.next.inj h).symm
  cases i with
  | sys nnn =>
    simp only [exec, execSys] at h
    split at h
    · exact .inr ⟨‹_›, plain h⟩
    · exact .inl ⟨_, by simp [errorCode], plain h⟩
  | call nnn =>
    simp only [exec, execCall] at h
    split at h
    · exact .inl ⟨_, by simp [errorCode], plain h⟩
    · obtain ⟨hs, h⟩ := pushAddr_cases h
      exact .inr ⟨hs, plain h⟩
  | ret =>
    simp only [exec, execRet] at h
    split at h
    · exact .inl ⟨_, by simp [errorCode], plain h⟩
    · obtain ⟨hs, h⟩ := popAddr_cases h
      exact .inr ⟨‹_›, hs, plain h⟩
  | drw x y n =>
    rcases orRaise_cases h with ⟨bs, hb, h⟩ | ⟨e, he, rfl⟩
    · obtain ⟨hn, rfl⟩ := readRange_cases hb
      exact .inr ⟨hn, plain h⟩
    · exact .inl ⟨e, readRange_error_code he, rfl⟩
  | skp x =>
    rcases orRaise_cases h with ⟨k, hk, h⟩ | ⟨e, he, rfl⟩
    · exact .inr ⟨k, hk, plain h⟩
    · exact .inl ⟨e, by rw [keyIndex_error_cases he]; simp [errorCode], rfl⟩
  | sknp x =>
    rcases orRaise_cases h with ⟨k, hk, h⟩ | ⟨e, he, rfl⟩
    · exact .inr ⟨k, hk, plain h⟩
    · exact .inl ⟨e, by rw [keyIndex_error_cases he]; simp [errorCode], rfl⟩
  | ldFVx x =>
    rcases orRaise_cases h with ⟨d, hd, h⟩ | ⟨e, he, rfl⟩
    · exact .inr ⟨d, hd, plain h⟩
    · exact .inl ⟨e, by rw [fontDigit_error_cases he]; simp [errorCode], rfl⟩
  | ldBVx x =>
    rcases orRaise_cases h with ⟨u, hu, h⟩ | ⟨e, he, rfl⟩
    · obtain ⟨hn, rfl⟩ := writeRange_cases hu
      exact .inr ⟨hn.resolve_left (by simp [bcdDigits]), plain h⟩
    · exact .inl ⟨e, writeRange_error_code he, rfl⟩
  | ldMemVx x =>
    rcases orRaise_cases h with ⟨u, hu, h⟩ | ⟨e, he, rfl⟩
    · obtain ⟨hn, rfl⟩ := writeRange_cases hu
      simp only [dumpBytes_length] at hn
      exact .inr ⟨hn.resolve_left (by omega), plain h⟩
    · exact .inl ⟨e, writeRange_error_code he, rfl⟩
  | ldVxMem x =>
    rcases orRaise_cases h with ⟨bs, hb, h⟩ | ⟨e, he, rfl⟩
    · obtain ⟨hn, rfl⟩ := readRange_cases hb
      exact .inr ⟨hn.resolve_left (by omega), plain h⟩
    · exact .inl ⟨e, readRange_error_code he, rfl⟩
  | _ => exact .inr (plain h)

/-! ### One step -/

theorem step_running {s : State} (h : s.run = .running) : step s = runCycle s := by simp only [step, h]

theorem step_waiting {s : State} {x : Nibble} (h : s.run = .waitingForKey x) : step s = .next (poll x s) := by
  simp only [step, h, waitCycle]

theorem step_faulted {s : State} {e : Error} (h : s.run = .faulted e) : step s = .next s := by
  simp only [step, h, faultedCycle]

/-- A cycle whose word decodes runs the instruction on the state with PC advanced (R112, R114). -/
theorem runCycle_ok {s : State} {w : Word} {i : Instr} (hf : fetch s = .ok w) (hd : decode w = .ok i) :
    runCycle s = exec i (advancePc s) := by
  simp only [runCycle, hf, orRaise_ok, hd]

theorem runCycle_illegal {s : State} {w : Word} {e : DecodeError} (hf : fetch s = .ok w) (hd : decode w = .error e) :
    runCycle s = .next ((advancePc s).setRun (.faulted (.illegalOpcode w s.pc))) := by
  simp only [runCycle, hf, orRaise_ok, hd, raiseError_eq]

theorem runCycle_fetchError {s : State} {e : Error} (hf : fetch s = .error e) : runCycle s = .next (s.setRun (.faulted e)) := by
  simp only [runCycle, hf, orRaise_error]

/-- A cycle fails in fetch, fails in decode, or runs its instruction (R264). -/
theorem runCycle_cases (s : State) :
    (∃ e, fetch s = .error e ∧ runCycle s = .next (s.setRun (.faulted e))) ∨
    (∃ w, fetch s = .ok w ∧ decode w = .error (.illegal w) ∧
      runCycle s = .next ((advancePc s).setRun (.faulted (.illegalOpcode w s.pc)))) ∨
    (∃ w i, fetch s = .ok w ∧ decode w = .ok i ∧ runCycle s = exec i (advancePc s)) := by
  cases hf : fetch s with
  | error e => exact .inl ⟨e, rfl, runCycle_fetchError hf⟩
  | ok w =>
    cases hd : decode w with
    | error e => exact .inr (.inl ⟨w, rfl, decode_error hd ▸ hd, runCycle_illegal hf hd⟩)
    | ok i => exact .inr (.inr ⟨w, i, rfl, hd, runCycle_ok hf hd⟩)

/-- What a poll does (R117): nothing, or the least pressed key completes the load. -/
theorem poll_cases (x : Nibble) (s : State) :
    (leastPressed s = none ∧ poll x s = s) ∨
    (∃ k, leastPressed s = some k ∧ poll x s = ((s.setReg x (keyByte k)).setPc (s.pc + 2)).setRun .running) := by
  cases h : leastPressed s with
  | none => exact .inl ⟨rfl, by simp only [poll, h]⟩
  | some k => exact .inr ⟨k, rfl, by simp only [poll, h]⟩

theorem leastPressed_none {s : State} (h : ∀ k, s.pressed k = false) : leastPressed s = none := by
  simp [leastPressed, h]

/-- The poll takes the least pressed key. -/
theorem leastPressed_some {s : State} {k : Nibble} (hk : s.pressed k = true) (hl : ∀ j : Nibble, j < k → s.pressed j = false) :
    leastPressed s = some k := by
  rw [leastPressed, List.find?_eq_some_iff_getElem]
  refine ⟨hk, k.val, by simp, by simp, fun j hj => ?_⟩
  simpa using hl ⟨j, by omega⟩ hj

/-! ### The host's placing of a word -/

theorem fetchable_entry (p : Params) : fetchable p 0x200 := ⟨by omega, .inl le_rfl⟩

theorem fetchAddr_fetchable (s : State) : fetchable s.params (fetchAddr s).toNat := by
  unfold fetchAddr
  split
  · rename_i h; exact (fetch_ok_iff.mp h).1
  · exact fetchable_entry _

/-- The next step runs exactly the placed word. -/
theorem step_withFetchWord {s : State} {w : Word} {i : Instr} (h : decode w = .ok i) :
    step (s.withFetchWord 16 w.toNat) = exec i (advancePc (s.withFetchWord 16 w.toNat)) := by
  have hf : fetch (s.withFetchWord 16 w.toNat) = .ok w := by
    rw [fetch_ok_iff]
    refine ⟨fetchAddr_fetchable s, ?_⟩
    simp only [State.withFetchWord, placeWord, tableWord_self, State.setRun_byteAt, State.setPc_byteAt, State.byteAt_setMem,
      State.setRun_pc, State.setPc_pc]
    rw [read_writeBytes, read_writeBytes, dif_pos (by simp [wordBytes]), dif_pos (by simp [wordBytes])]
    simp [wordBytes]
  rw [step_running rfl, runCycle_ok hf h]

end Sys2Proof.Machine
end

