-- ==== Sys2Proof/Laws/Frames.lean ====
section
/-! SUPPORT. Frames compose: what `unchangedBut` says of each single update, and of one update after another. -/

namespace Sys2Proof.Machine

variable {s t u : State} {cs ds : List Component}

theorem Component.same_refl (c : Component) (s : State) : c.same s s := by cases c <;> simp [Component.same]

theorem Component.same_trans {c : Component} (h : c.same s t) (h' : c.same t u) : c.same s u := by
  cases c <;> simp_all [Component.same]

theorem unchangedBut_refl (cs : List Component) (s : State) : unchangedBut cs s s := fun c _ => c.same_refl s

theorem unchangedBut_mono (h : unchangedBut cs s t) (hsub : ∀ c ∈ cs, c ∈ ds) : unchangedBut ds s t :=
  fun c hc => h c fun hc' => hc (hsub c hc')

theorem unchangedBut_trans (h : unchangedBut cs s t) (h' : unchangedBut cs t u) : unchangedBut cs s u :=
  fun c hc => Component.same_trans (h c hc) (h' c hc)

theorem unchangedBut_setReg (s : State) (r : Nibble) (b : Byte) : unchangedBut [.regs] s (s.setReg r b) := by
  intro c hc; cases c <;> simp_all [Component.same]

theorem unchangedBut_setI (s : State) (w : Word) : unchangedBut [.index] s (s.setI w) := by
  intro c hc; cases c <;> simp_all [Component.same]

theorem unchangedBut_setPc (s : State) (w : Word) : unchangedBut [.pc] s (s.setPc w) := by
  intro c hc; cases c <;> simp_all [Component.same]

theorem unchangedBut_setSp (s : State) (n : Byte) : unchangedBut [.stack] s (s.setSp n) := by
  intro c hc; cases c <;> simp_all [Component.same]

theorem unchangedBut_setSlot (s : State) (j : Nibble) (w : Word) : unchangedBut [.stack] s (s.setSlot j w) := by
  intro c hc; cases c <;> simp_all [Component.same]

theorem unchangedBut_setDt (s : State) (b : Byte) : unchangedBut [.delay] s (s.setDt b) := by
  intro c hc; cases c <;> simp_all [Component.same]

theorem unchangedBut_setSt (s : State) (b : Byte) : unchangedBut [.sound] s (s.setSt b) := by
  intro c hc; cases c <;> simp_all [Component.same]

theorem unchangedBut_setDisp (s : State) (d : Display) : unchangedBut [.display] s (s.setDisp d) := by
  intro c hc; cases c <;> simp_all [Component.same]

theorem unchangedBut_writeKey (s : State) (k : Nibble) (p : Bool) : unchangedBut [.keys] s (s.writeKey k p) := by
  intro c hc; cases c <;> simp_all [Component.same]

theorem unchangedBut_setRun (s : State) (r : RunState) : unchangedBut [.run] s (s.setRun r) := by
  intro c hc; cases c <;> simp_all [Component.same]

theorem unchangedBut_setMem (s : State) (m : Memory) : unchangedBut [.memory] s (s.setMem m) := by
  intro c hc; cases c <;> simp_all [Component.same]

theorem unchangedBut_countDraw (s : State) : unchangedBut [.draws] s s.countDraw := by
  intro c hc; cases c <;> simp_all [Component.same]

/-- Raising an error is what `tookError` says. -/
theorem tookError_raise (e : Error) (s : State) : tookError e s (s.setRun (.faulted e)) :=
  ⟨rfl, unchangedBut_setRun s _⟩

end Sys2Proof.Machine
end

