-- ==== Sys2Proof/Laws/Sprite.lean ====
section
/-! SUPPORT. What drawing a sprite does to each pixel: its loops are one pass over the pixels its 1 bits fall on, and those are pairwise
distinct. -/

namespace Sys2Proof.Machine

theorem Display.pixel_setPixel (d : Display) (r q : Fin 32) (c e : Fin 64) (b : Bool) :
    Display.pixel (Display.setPixel d r c b) q e = if q = r ∧ e = c then b else Display.pixel d q e := by
  simp only [Display.pixel, Display.setPixel, Fin.getElem_fin, Vector.getElem_set, Fin.ext_iff]
  by_cases h : q.val = r.val
  · simp only [h, if_true, true_and, Vector.getElem_set, eq_comm]
  · simp only [h, Ne.symm h, if_false, false_and]

@[simp] theorem Display.pixel_clear (r : Fin 32) (c : Fin 64) : Display.pixel clearDisplay r c = false := by
  simp [Display.pixel, clearDisplay]

/-- A display is its pixels. -/
theorem Display.ext_of_pixel {d e : Display} (h : ∀ r c, Display.pixel d r c = Display.pixel e r c) : d = e := by
  refine Vector.ext fun r hr => Vector.ext fun c hc => ?_
  exact h ⟨r, hr⟩ ⟨c, hc⟩

/-- Toggle one pixel, noting a collision. -/
def toggle (cv : Canvas) (p : Fin 32 × Fin 64) : Canvas :=
  (Display.setPixel cv.1 p.1 p.2 (!Display.pixel cv.1 p.1 p.2), cv.2 || Display.pixel cv.1 p.1 p.2)

/-- Toggling distinct pixels: each of them flips, every other stays, and a collision is one that was set. -/
theorem foldl_toggle {ps : List (Fin 32 × Fin 64)} (hn : ps.Nodup) (cv : Canvas) :
    (∀ r c, Display.pixel (ps.foldl toggle cv).1 r c =
      if (r, c) ∈ ps then !Display.pixel cv.1 r c else Display.pixel cv.1 r c) ∧
    ((ps.foldl toggle cv).2 = true ↔ cv.2 = true ∨ ∃ p ∈ ps, Display.pixel cv.1 p.1 p.2 = true) := by
  induction ps generalizing cv with
  | nil => simp
  | cons p ps ih =>
    rw [List.nodup_cons] at hn
    have hp : ∀ q ∈ ps, q ≠ p := fun q hq e => hn.1 (e ▸ hq)
    obtain ⟨h1, h2⟩ := ih hn.2 (toggle cv p)
    constructor
    · intro r c
      rw [List.foldl_cons, h1 r c]
      simp only [toggle, Display.pixel_setPixel]
      by_cases e : (r, c) = p
      · subst e; simp [hn.1]
      · have e' : ¬(r = p.1 ∧ c = p.2) := fun h => e (Prod.ext h.1 h.2)
        simp only [if_neg e', List.mem_cons, e, false_or]
    · rw [List.foldl_cons, h2]
      have hq : ∀ q ∈ ps, Display.pixel (toggle cv p).1 q.1 q.2 = Display.pixel cv.1 q.1 q.2 := fun q hq => by
        rw [toggle, Display.pixel_setPixel, if_neg fun h => hp q hq (Prod.ext h.1 h.2)]
      simp only [toggle, Bool.or_eq_true, List.mem_cons, exists_eq_or_imp, or_assoc]
      refine or_congr_right (or_congr_right (exists_congr fun q => and_congr_right fun hm => ?_))
      have := hq q hm
      simp only [toggle] at this
      rw [this]

/-! ### The pixels a sprite falls on -/

/-- The pixels the 1 bits of one sprite row fall on. -/
def rowTargets (x0 y0 row : Nat) (b : Byte) : List (Fin 32 × Fin 64) :=
  ((List.range 8).filter fun col => spriteBit b col).map fun col => (wrapRow y0 row, wrapCol x0 col)

/-- The pixels the 1 bits of the sprite rows from `row` on fall on. -/
def spriteTargets (x0 y0 : Nat) : Nat → List Byte → List (Fin 32 × Fin 64)
  | _, [] => []
  | row, b :: bs => rowTargets x0 y0 row b ++ spriteTargets x0 y0 (row + 1) bs

theorem drawRow_eq_foldl (x0 y0 row : Nat) (b : Byte) (cv : Canvas) :
    drawRow x0 y0 row b cv = (rowTargets x0 y0 row b).foldl toggle cv := by
  rw [drawRow, rowTargets, List.foldl_map, List.foldl_filter]
  rfl

theorem drawRows_eq_foldl (x0 y0 row : Nat) (bs : List Byte) (cv : Canvas) :
    drawRows x0 y0 row bs cv = (spriteTargets x0 y0 row bs).foldl toggle cv := by
  induction bs generalizing row cv with
  | nil => rfl
  | cons b bs ih => rw [drawRows, ih, drawRow_eq_foldl, spriteTargets, List.foldl_append]

theorem mem_rowTargets {x0 y0 row : Nat} {b : Byte} {p : Fin 32 × Fin 64} :
    p ∈ rowTargets x0 y0 row b ↔ ∃ col, col < 8 ∧ spriteBit b col = true ∧ p = (wrapRow y0 row, wrapCol x0 col) := by
  simp only [rowTargets, List.mem_map, List.mem_filter, List.mem_range, and_assoc, eq_comm]

theorem mem_spriteTargets {x0 y0 row : Nat} {bs : List Byte} {p : Fin 32 × Fin 64} :
    p ∈ spriteTargets x0 y0 row bs ↔ ∃ k, ∃ h : k < bs.length, ∃ col, col < 8 ∧ spriteBit bs[k] col = true ∧
      p = (wrapRow y0 (row + k), wrapCol x0 col) := by
  induction bs generalizing row with
  | nil => simp [spriteTargets]
  | cons b bs ih =>
    rw [spriteTargets, List.mem_append, mem_rowTargets, ih]
    constructor
    · rintro (h | ⟨k, hk, h⟩)
      · exact ⟨0, by simp, h⟩
      · exact ⟨k + 1, by simpa using hk, by simpa [Nat.add_assoc, Nat.add_comm 1] using h⟩
    · rintro ⟨k, hk, h⟩
      cases k with
      | zero => exact .inl h
      | succ k => exact .inr ⟨k, by simpa using hk, by simpa [Nat.add_assoc, Nat.add_comm 1] using h⟩

theorem rowTargets_nodup (x0 y0 row : Nat) (b : Byte) : (rowTargets x0 y0 row b).Nodup := by
  refine List.Nodup.map_on (fun c hc d hd h => ?_) (List.nodup_range.filter _)
  have hc := List.mem_range.mp (List.mem_filter.mp hc).1
  have hd := List.mem_range.mp (List.mem_filter.mp hd).1
  have h := congrArg (fun p => p.2.val) h
  simp only [wrapCol] at h
  omega

/-- "Since a sprite has at most 15 rows (< 32) and 8 columns (< 64), the wrapped targets of one draw are pairwise distinct" (R202). -/
theorem spriteTargets_nodup (x0 y0 row : Nat) {bs : List Byte} (h : bs.length ≤ 32) : (spriteTargets x0 y0 row bs).Nodup := by
  induction bs generalizing row with
  | nil => simp [spriteTargets]
  | cons b bs ih =>
    simp only [List.length_cons] at h
    refine List.Nodup.append (rowTargets_nodup x0 y0 row b) (ih (row + 1) (by omega)) ?_
    intro p hp hq
    obtain ⟨c, hc, _, rfl⟩ := mem_rowTargets.mp hp
    obtain ⟨k, hk, d, hd, _, e⟩ := mem_spriteTargets.mp hq
    have e := congrArg (fun p => p.1.val) e
    simp only [wrapRow] at e
    omega

/-- The draw, pixel by pixel, and its collision (R202, R203). -/
theorem drawSprite_spec {x0 y0 : Byte} {bs : List Byte} (h : bs.length ≤ 32) (d : Display) :
    (∀ r c, Display.pixel (drawSprite x0 y0 bs d).1 r c =
      if (r, c) ∈ spriteTargets x0.toNat y0.toNat 0 bs then !Display.pixel d r c else Display.pixel d r c) ∧
    ((drawSprite x0 y0 bs d).2 = true ↔ ∃ p ∈ spriteTargets x0.toNat y0.toNat 0 bs, Display.pixel d p.1 p.2 = true) := by
  have := foldl_toggle (spriteTargets_nodup x0.toNat y0.toNat 0 h) (d, false)
  rw [drawSprite, drawRows_eq_foldl]
  simpa using this

end Sys2Proof.Machine
end

