-- ==== Sys2Proof/Laws/ExecFrames.lean ====
section
/-! SUPPORT. The frame of every instruction that completes: the components it may change, said once; and what a sprite's pixels are. -/

namespace Sys2Proof.Machine

/-- The components an instruction may change when it completes, with `p` the parameters. -/
def touches (p : Params) : Instr → List Component
  | .sys _ => []
  | .cls => [.display]
  | .drw _ _ _ => [.display, .regs]
  | .jp _ | .jpV0 _ | .seVxKk _ _ | .sneVxKk _ _ | .seVxVy _ _ | .sneVxVy _ _ | .skp _ | .sknp _ => [.pc]
  | .call _ | .ret => [.pc, .stack]
  | .ldVxKk _ _ | .addVxKk _ _ | .ldVxVy _ _ | .orVxVy _ _ | .andVxVy _ _ | .xorVxVy _ _ | .addVxVy _ _ | .subVxVy _ _
  | .shrVxVy _ _ | .subnVxVy _ _ | .shlVxVy _ _ | .ldVxDt _ => [.regs]
  | .rnd _ _ => [.regs, .draws]
  | .ldI _ | .addIVx _ | .ldFVx _ => [.index]
  | .ldVxK _ => [.run, .pc]
  | .ldDtVx _ => [.delay]
  | .ldStVx _ => [.sound]
  | .ldBVx _ => [.memory]
  | .ldMemVx _ => if p.memI = .increment then [.memory, .index] else [.memory]
  | .ldVxMem _ => if p.memI = .increment then [.regs, .index] else [.regs]

theorem unchangedBut_skipIf (c : Bool) (s : State) : unchangedBut [.pc] s (skipIf c s) := by
  unfold skipIf; split
  · exact unchangedBut_setPc _ _
  · exact unchangedBut_refl _ _

/-- Any change of the register file alone. -/
theorem unchangedBut_v (s : State) (v : Vector Byte 16) : unchangedBut [.regs] s { s with v := v } := by
  intro c hc; cases c <;> simp_all [Component.same, State.byteAt, State.slot, State.pressed]

theorem unchangedBut_writeLogic (x : Nibble) (r : Byte) (s : State) : unchangedBut [.regs] s (writeLogic x r s) := by
  rw [writeLogic_eq]; exact unchangedBut_v _ _

theorem unchangedBut_writeWithFlag (x : Nibble) (r : Byte) (f : Bool) (s : State) :
    unchangedBut [.regs] s (writeWithFlag x r f s) := by
  rw [writeWithFlag_eq]; exact unchangedBut_v _ _

theorem unchangedBut_loadRegs (s : State) (rs : List Nibble) (bs : List Byte) : unchangedBut [.regs] s (loadRegs s rs bs) := by
  rw [loadRegs_eq]; exact unchangedBut_v _ _

theorem unchangedBut_finishIndex (x : Nibble) (s : State) :
    unchangedBut (if s.params.memI = .increment then [.index] else []) s (finishIndex x s) := by
  unfold finishIndex
  cases s.params.memI
  · exact unchangedBut_refl _ _
  · exact unchangedBut_setI _ _

/-- Two frames in a row. -/
theorem unchangedBut_append {cs ds : List Component} {s t u : State} (h : unchangedBut cs s t) (h' : unchangedBut ds t u) :
    unchangedBut (cs ++ ds) s u :=
  unchangedBut_trans (unchangedBut_mono h (by simp +contextual)) (unchangedBut_mono h' (by simp +contextual))

/-- The frame of every instruction that completes. -/
theorem completes_unchangedBut {i : Instr} {s t : State} (h : Completes i s t) : unchangedBut (touches s.params i) s t := by
  cases i <;> simp only [Completes] at h
  case sys => obtain ⟨-, rfl⟩ := h; exact unchangedBut_refl _ _
  case call =>
    obtain ⟨hs, rfl⟩ := h
    exact unchangedBut_mono (unchangedBut_append (unchangedBut_append (unchangedBut_setSlot _ _ _) (unchangedBut_setSp _ _))
      (unchangedBut_setPc _ _)) (by simp [touches])
  case ret =>
    obtain ⟨-, hs, rfl⟩ := h
    exact unchangedBut_mono (unchangedBut_append (unchangedBut_setSp _ _) (unchangedBut_setPc _ _)) (by simp [touches])
  case drw => obtain ⟨-, rfl⟩ := h; exact unchangedBut_append (unchangedBut_setDisp _ _) (unchangedBut_setReg _ _ _)
  case skp => obtain ⟨k, -, rfl⟩ := h; exact unchangedBut_skipIf _ _
  case sknp => obtain ⟨k, -, rfl⟩ := h; exact unchangedBut_skipIf _ _
  case ldFVx => obtain ⟨d, -, rfl⟩ := h; exact unchangedBut_setI _ _
  case ldBVx => obtain ⟨-, rfl⟩ := h; exact unchangedBut_setMem _ _
  case ldMemVx x =>
    obtain ⟨-, rfl⟩ := h
    have h1 := unchangedBut_append (unchangedBut_setMem s (writeBytes s.mem s.i.toNat (dumpBytes x s)))
      (unchangedBut_finishIndex x _)
    rw [State.setMem_params] at h1
    simp only [touches]
    exact unchangedBut_mono h1 (by split <;> simp)
  case ldVxMem x =>
    obtain ⟨-, rfl⟩ := h
    have h1 := unchangedBut_loadRegs s (regsUpTo x) (readBytes s.mem s.i.toNat (x.val + 1))
    have hp : (loadRegs s (regsUpTo x) (readBytes s.mem s.i.toNat (x.val + 1))).params = s.params := h1 .params (by decide)
    have h2 := unchangedBut_append h1 (unchangedBut_finishIndex x _)
    rw [hp] at h2
    simp only [touches]
    exact unchangedBut_mono h2 (by split <;> simp)
  all_goals subst h
  case rnd => exact unchangedBut_append (unchangedBut_setReg _ _ _) (unchangedBut_countDraw _)
  case ldVxK => exact unchangedBut_append (unchangedBut_setRun _ _) (unchangedBut_setPc _ _)
  case cls => exact unchangedBut_setDisp _ _
  case jp => exact unchangedBut_setPc _ _
  case jpV0 => exact unchangedBut_setPc _ _
  case ldI => exact unchangedBut_setI _ _
  case addIVx => exact unchangedBut_setI _ _
  case ldDtVx => exact unchangedBut_setDt _ _
  case ldStVx => exact unchangedBut_setSt _ _
  case seVxKk => exact unchangedBut_skipIf _ _
  case sneVxKk => exact unchangedBut_skipIf _ _
  case seVxVy => exact unchangedBut_skipIf _ _
  case sneVxVy => exact unchangedBut_skipIf _ _
  case ldVxKk => exact unchangedBut_setReg _ _ _
  case addVxKk => exact unchangedBut_setReg _ _ _
  case ldVxVy => exact unchangedBut_setReg _ _ _
  case ldVxDt => exact unchangedBut_setReg _ _ _
  case orVxVy => exact unchangedBut_writeLogic _ _ _
  case andVxVy => exact unchangedBut_writeLogic _ _ _
  case xorVxVy => exact unchangedBut_writeLogic _ _ _
  all_goals exact unchangedBut_writeWithFlag _ _ _ _

/-- An instruction that completes raises no error: RUN is as before, or waiting for a key. -/
theorem completes_run {i : Instr} {s t : State} (h : Completes i s t) : t.run = s.run ∨ ∃ x, t.run = .waitingForKey x := by
  by_cases hm : .run ∈ touches s.params i
  · cases i <;> simp only [touches] at hm <;> first | (simp at hm; done) | (split at hm <;> simp at hm) | skip
    exact .inr ⟨_, by rw [show _ = _ from h]; rfl⟩
  · exact .inl (completes_unchangedBut h .run hm)

/-- The pixels `drawSprite` toggles are those the sprite at I covers. -/
theorem mem_spriteTargets_iff_covers {s : State} {x0 y0 n : Nat} {r : Fin 32} {c : Fin 64} :
    (r, c) ∈ spriteTargets x0 y0 0 (readBytes s.mem s.i.toNat n) ↔ spriteCovers s x0 y0 n r c := by
  rw [mem_spriteTargets]
  constructor
  · rintro ⟨k, hk, col, hc, hb, e⟩
    rw [readBytes_getElem] at hb
    simp only [Prod.mk.injEq] at e
    exact ⟨k, col, by simpa using hk, hc, by rw [e.1]; simp [wrapRow], by rw [e.2]; rfl, hb⟩
  · rintro ⟨k, col, hk, hc, h1, h2, hb⟩
    refine ⟨k, by simpa using hk, col, hc, ?_, Prod.ext (Fin.ext (by simpa [wrapRow] using h1)) (Fin.ext h2)⟩
    rw [readBytes_getElem]
    exact hb

end Sys2Proof.Machine
end

