-- ==== Sys2Proof/Laws/Host.lean ====
section
/-! SUPPORT. What the host's calls can do, and how finite and infinite sequences of them go together. -/

namespace Sys2Proof.Machine

@[simp] theorem andThen_next (t : State) (k : State → Result) : andThen (.next t) k = k t := rfl

/-- A sequence goes on exactly from a next state. -/
theorem andThen_eq_next {r : Result} {k : State → Result} {u : State} :
    andThen r k = .next u ↔ ∃ t, r = .next t ∧ k t = .next u := by
  cases r with
  | next t => exact ⟨fun h => ⟨t, rfl, h⟩, fun ⟨t', e, h⟩ => by cases e; exact h⟩
  | fault e => exact ⟨fun h => by simp [andThen] at h, fun ⟨t', e, h⟩ => by cases e⟩
  | refused e => exact ⟨fun h => by simp [andThen] at h, fun ⟨t', e, h⟩ => by cases e⟩

theorem andThen_assoc (r : Result) (k l : State → Result) :
    andThen (andThen r k) l = andThen r fun s => andThen (k s) l := by
  cases r <;> rfl

theorem runOps_append (ops more : List HostOp) (s : State) : runOps (ops ++ more) s = andThen (runOps ops s) (runOps more) := by
  induction ops generalizing s with
  | nil => rfl
  | cons op ops ih =>
    rw [List.cons_append, runOps, runOps, andThen_assoc]
    congr 1
    funext t
    exact ih t

theorem runOps_single (op : HostOp) (s : State) : runOps [op] s = applyOp op s := by
  simp only [runOps]; cases applyOp op s <;> rfl

/-- The first n calls of a schedule are a finite sequence of calls. -/
theorem runSchedule_eq_runOps (f : Schedule) (s : State) (n : Nat) : runSchedule f s n = runOps ((List.range n).map f) s := by
  induction n with
  | zero => rfl
  | succ n ih =>
    rw [runSchedule, ih, List.range_succ, List.map_append, runOps_append]
    simp only [List.map_cons, List.map_nil]
    congr 1
    funext t
    exact (runOps_single _ t).symm

theorem unchangedBut_tickTimers (s : State) : unchangedBut [.delay, .sound] s (tickTimers s) :=
  unchangedBut_append (unchangedBut_setDt _ _) (unchangedBut_setSt _ _)

/-- A call that is not a step answers a next state and changes at most the timers and the keys. -/
theorem applyOp_not_step {op : HostOp} (h : op ≠ .step) (s : State) :
    ∃ t, applyOp op s = .next t ∧ unchangedBut [.delay, .sound, .keys] s t := by
  cases op with
  | step => exact absurd rfl h
  | tickTimers => exact ⟨_, rfl, unchangedBut_mono (unchangedBut_tickTimers s) (by simp)⟩
  | setKey k p => exact ⟨_, rfl, unchangedBut_mono (unchangedBut_writeKey s k p) (by simp)⟩
  | read port => exact ⟨_, rfl, unchangedBut_refl _ _⟩

theorem countDown_toNat (b : Byte) : (countDown b).toNat = b.toNat - 1 := by
  unfold countDown; split
  · exact u8_toNat (by omega)
  · omega

/-! ### The end of a run depends on RUN, PC, memory and the parameters only -/

theorem fetch_congr {s t : State} (h : unchangedBut [.delay, .sound, .keys] s t) : fetch t = fetch s := by
  have hpc : t.pc = s.pc := h .pc (by decide)
  have hp : t.params = s.params := h .params (by decide)
  have hm : ∀ a, t.byteAt a = s.byteAt a := h .memory (by decide)
  simp only [fetch, hpc, hp, hm]

theorem haltedAtPc_congr {s t : State} (h : unchangedBut [.delay, .sound, .keys] s t) : haltedAtPc t ↔ haltedAtPc s := by
  have hpc : t.pc = s.pc := h .pc (by decide)
  have hr : t.run = s.run := h .run (by decide)
  simp only [haltedAtPc, fetch_congr h, hpc, hr]

theorem isFaulted_congr {s t : State} (h : unchangedBut [.delay, .sound, .keys] s t) : isFaulted t ↔ isFaulted s := by
  have hr : t.run = s.run := h .run (by decide)
  simp only [isFaulted, hr]

theorem runEnded_congr {s t : State} (h : unchangedBut [.delay, .sound, .keys] s t) : runEnded t ↔ runEnded s :=
  or_congr (haltedAtPc_congr h) (isFaulted_congr h)

end Sys2Proof.Machine
end

