-- ==== Sys2Proof/Laws/PerInstr.lean ====
section
/-! SUPPORT. Laws about every instruction as syntax, one lemma per constructor. -/

namespace Sys2Proof.Laws.EncodeMatchesRow

/-- A well-formed instruction's word matches the mask and match of the row it stands in (R86). -/
def Statement (i : Instr) : Prop :=
  i.wellFormed = true → ∃ r ∈ sysRow :: opcodeRows, r.num = i.row ∧ r.holds (encode i) = true

/-! Each format's words match a row whose pattern has the format's operation code. -/

theorem of_NNN (k : Nat) {i : Instr} {op : Nat} {nnn : Addr12} (hop : op < 16) (he : encode i = encNNN op nnn)
    (hk : k = i.row) (hr : OpRow.mk k 0xF000 (u16 (op * 4096)) ∈ sysRow :: opcodeRows) : Statement i := fun _ =>
  ⟨_, hr, hk, by
    rw [he, holds_F000 _ _ _ (by rw [u16_toNat (by omega)]; omega), opNibble,
      u16_toNat (by omega), encNNN_toNat hop, decide_eq_true_eq]
    have := nnn.isLt; omega⟩

theorem of_XKK (k : Nat) {i : Instr} {op : Nat} {x : Nibble} {kk : Byte} (hop : op < 16) (he : encode i = encXKK op x kk)
    (hk : k = i.row) (hr : OpRow.mk k 0xF000 (u16 (op * 4096)) ∈ sysRow :: opcodeRows) : Statement i := fun _ =>
  ⟨_, hr, hk, by
    rw [he, holds_F000 _ _ _ (by rw [u16_toNat (by omega)]; omega), opNibble,
      u16_toNat (by omega), encXKK_toNat hop, decide_eq_true_eq]
    have := kk.isLt; have := x.isLt; omega⟩

theorem of_XYN (k : Nat) {i : Instr} {op n : Nat} {x y : Nibble} (hop : op < 16) (hn : n < 16) (he : encode i = encXYN op x y n)
    (hk : k = i.row) (hr : OpRow.mk k 0xF000 (u16 (op * 4096)) ∈ sysRow :: opcodeRows) : Statement i := fun _ =>
  ⟨_, hr, hk, by
    rw [he, holds_F000 _ _ _ (by rw [u16_toNat (by omega)]; omega), opNibble,
      u16_toNat (by omega), encXYN_toNat hop hn, decide_eq_true_eq]
    have := y.isLt; have := x.isLt; omega⟩

theorem of_XY (k : Nat) {i : Instr} {op n : Nat} {x y : Nibble} (hop : op < 16) (hn : n < 16) (he : encode i = encXYN op x y n)
    (hk : k = i.row) (hr : OpRow.mk k 0xF00F (u16 (op * 4096 + n)) ∈ sysRow :: opcodeRows) : Statement i := fun _ =>
  ⟨_, hr, hk, by
    have := y.isLt; have := x.isLt
    rw [he, holds_F00F _ _ _ (by rw [u16_toNat (by omega)]; omega), opNibble,
      u16_toNat (by omega), encXYN_toNat hop hn, decide_eq_true_eq]
    omega⟩

theorem of_X (k : Nat) {i : Instr} {op sub : Nat} {x : Nibble} (hop : op < 16) (hs : sub < 256) (he : encode i = encX op x sub)
    (hk : k = i.row) (hr : OpRow.mk k 0xF0FF (u16 (op * 4096 + sub)) ∈ sysRow :: opcodeRows) : Statement i := fun _ =>
  ⟨_, hr, hk, by
    have := x.isLt
    rw [he, holds_F0FF _ _ _ (by rw [u16_toNat (by omega)]; omega), opNibble,
      u16_toNat (by omega), encX_toNat hop hs, decide_eq_true_eq]
    omega⟩

theorem cls : Statement .cls := fun _ => ⟨⟨1, 0xFFFF, 0x00E0⟩, by decide, rfl, by decide⟩
theorem ret : Statement .ret := fun _ => ⟨⟨2, 0xFFFF, 0x00EE⟩, by decide, rfl, by decide⟩
theorem sys (nnn : Addr12) : Statement (.sys nnn) := of_NNN 3 (by decide) rfl rfl (by decide)
theorem jp (nnn : Addr12) : Statement (.jp nnn) := of_NNN 4 (by decide) rfl rfl (by decide)
theorem call (nnn : Addr12) : Statement (.call nnn) := of_NNN 5 (by decide) rfl rfl (by decide)
theorem seVxKk (x : Nibble) (kk : Byte) : Statement (.seVxKk x kk) := of_XKK 6 (by decide) rfl rfl (by decide)
theorem sneVxKk (x : Nibble) (kk : Byte) : Statement (.sneVxKk x kk) := of_XKK 7 (by decide) rfl rfl (by decide)
theorem seVxVy (x y : Nibble) : Statement (.seVxVy x y) := of_XYN 8 (by decide) (by decide) rfl rfl (by decide)
theorem ldVxKk (x : Nibble) (kk : Byte) : Statement (.ldVxKk x kk) := of_XKK 9 (by decide) rfl rfl (by decide)
theorem addVxKk (x : Nibble) (kk : Byte) : Statement (.addVxKk x kk) := of_XKK 10 (by decide) rfl rfl (by decide)
theorem ldVxVy (x y : Nibble) : Statement (.ldVxVy x y) := of_XY 11 (by decide) (by decide) rfl rfl (by decide)
theorem orVxVy (x y : Nibble) : Statement (.orVxVy x y) := of_XY 12 (by decide) (by decide) rfl rfl (by decide)
theorem andVxVy (x y : Nibble) : Statement (.andVxVy x y) := of_XY 13 (by decide) (by decide) rfl rfl (by decide)
theorem xorVxVy (x y : Nibble) : Statement (.xorVxVy x y) := of_XY 14 (by decide) (by decide) rfl rfl (by decide)
theorem addVxVy (x y : Nibble) : Statement (.addVxVy x y) := of_XY 15 (by decide) (by decide) rfl rfl (by decide)
theorem subVxVy (x y : Nibble) : Statement (.subVxVy x y) := of_XY 16 (by decide) (by decide) rfl rfl (by decide)
theorem shrVxVy (x y : Nibble) : Statement (.shrVxVy x y) := of_XY 17 (by decide) (by decide) rfl rfl (by decide)
theorem subnVxVy (x y : Nibble) : Statement (.subnVxVy x y) := of_XY 18 (by decide) (by decide) rfl rfl (by decide)
theorem shlVxVy (x y : Nibble) : Statement (.shlVxVy x y) := of_XY 19 (by decide) (by decide) rfl rfl (by decide)
theorem sneVxVy (x y : Nibble) : Statement (.sneVxVy x y) := of_XYN 20 (by decide) (by decide) rfl rfl (by decide)
theorem ldI (nnn : Addr12) : Statement (.ldI nnn) := of_NNN 21 (by decide) rfl rfl (by decide)
theorem jpV0 (nnn : Addr12) : Statement (.jpV0 nnn) := of_NNN 22 (by decide) rfl rfl (by decide)
theorem rnd (x : Nibble) (kk : Byte) : Statement (.rnd x kk) := of_XKK 23 (by decide) rfl rfl (by decide)
theorem drw (x y n : Nibble) : Statement (.drw x y n) := of_XYN 24 (by decide) n.isLt rfl rfl (by decide)
theorem skp (x : Nibble) : Statement (.skp x) := of_X 25 (by decide) (by decide) rfl rfl (by decide)
theorem sknp (x : Nibble) : Statement (.sknp x) := of_X 26 (by decide) (by decide) rfl rfl (by decide)
theorem ldVxDt (x : Nibble) : Statement (.ldVxDt x) := of_X 27 (by decide) (by decide) rfl rfl (by decide)
theorem ldVxK (x : Nibble) : Statement (.ldVxK x) := of_X 28 (by decide) (by decide) rfl rfl (by decide)
theorem ldDtVx (x : Nibble) : Statement (.ldDtVx x) := of_X 29 (by decide) (by decide) rfl rfl (by decide)
theorem ldStVx (x : Nibble) : Statement (.ldStVx x) := of_X 30 (by decide) (by decide) rfl rfl (by decide)
theorem addIVx (x : Nibble) : Statement (.addIVx x) := of_X 31 (by decide) (by decide) rfl rfl (by decide)
theorem ldFVx (x : Nibble) : Statement (.ldFVx x) := of_X 32 (by decide) (by decide) rfl rfl (by decide)
theorem ldBVx (x : Nibble) : Statement (.ldBVx x) := of_X 33 (by decide) (by decide) rfl rfl (by decide)
theorem ldMemVx (x : Nibble) : Statement (.ldMemVx x) := of_X 34 (by decide) (by decide) rfl rfl (by decide)
theorem ldVxMem (x : Nibble) : Statement (.ldVxMem x) := of_X 35 (by decide) (by decide) rfl rfl (by decide)

end Sys2Proof.Laws.EncodeMatchesRow
end

