-- ==== Sys2Proof/Tests/Slice0.lean ====
section
/-! SUPPORT. The model's own tests: well-formedness, one hand-written word per constructor, single steps from spec/95_test_vectors.md, and
for every obligation with hypotheses a state and operands that meet them. -/

namespace Sys2Proof.Tests

open Sys2Proof Sys2Proof.Machine

/-! Each test is checked before the next is read: side by side they hold too many threads. -/

set_option Elab.async false

/-! ### Well-formedness: the one check, and what it refuses (R84, R141) -/

theorem test_sys_is_not_cls : (Instr.sys 0x0E0).wellFormed = false := by decide
theorem test_sys_is_not_ret : (Instr.sys 0x0EE).wellFormed = false := by decide
theorem test_sys_ok : (Instr.sys 0x123).wellFormed = true := by decide

/-! ### Decoding: a word of each row of R86, written out from its pattern -/

theorem test_decode_cls : decode 0x00E0 = .ok .cls := by decide
theorem test_decode_ret : decode 0x00EE = .ok .ret := by decide
theorem test_decode_sys : decode 0x0123 = .ok (.sys 0x123) := by decide
theorem test_decode_jp : decode 0x1ABC = .ok (.jp 0xABC) := by decide
theorem test_decode_call : decode 0x2300 = .ok (.call 0x300) := by decide
theorem test_decode_seVxKk : decode 0x3510 = .ok (.seVxKk 5 0x10) := by decide
theorem test_decode_sneVxKk : decode 0x4A7F = .ok (.sneVxKk 0xA 0x7F) := by decide
theorem test_decode_seVxVy : decode 0x5120 = .ok (.seVxVy 1 2) := by decide
theorem test_decode_ldVxKk : decode 0x6A02 = .ok (.ldVxKk 0xA 0x02) := by decide
theorem test_decode_addVxKk : decode 0x71FF = .ok (.addVxKk 1 0xFF) := by decide
theorem test_decode_ldVxVy : decode 0x8120 = .ok (.ldVxVy 1 2) := by decide
theorem test_decode_orVxVy : decode 0x8341 = .ok (.orVxVy 3 4) := by decide
theorem test_decode_andVxVy : decode 0x8562 = .ok (.andVxVy 5 6) := by decide
theorem test_decode_xorVxVy : decode 0x8783 = .ok (.xorVxVy 7 8) := by decide
theorem test_decode_addVxVy : decode 0x8AB4 = .ok (.addVxVy 0xA 0xB) := by decide
theorem test_decode_subVxVy : decode 0x8125 = .ok (.subVxVy 1 2) := by decide
theorem test_decode_shrVxVy : decode 0x8106 = .ok (.shrVxVy 1 0) := by decide
theorem test_decode_subnVxVy : decode 0x8127 = .ok (.subnVxVy 1 2) := by decide
theorem test_decode_shlVxVy : decode 0x810E = .ok (.shlVxVy 1 0) := by decide
theorem test_decode_sneVxVy : decode 0x9DC0 = .ok (.sneVxVy 0xD 0xC) := by decide
theorem test_decode_ldI : decode 0xA300 = .ok (.ldI 0x300) := by decide
theorem test_decode_jpV0 : decode 0xB304 = .ok (.jpV0 0x304) := by decide
theorem test_decode_rnd : decode 0xC30F = .ok (.rnd 3 0x0F) := by decide
theorem test_decode_drw : decode 0xD015 = .ok (.drw 0 1 5) := by decide
theorem test_decode_skp : decode 0xE29E = .ok (.skp 2) := by decide
theorem test_decode_sknp : decode 0xE2A1 = .ok (.sknp 2) := by decide
theorem test_decode_ldVxDt : decode 0xF507 = .ok (.ldVxDt 5) := by decide
theorem test_decode_ldVxK : decode 0xF30A = .ok (.ldVxK 3) := by decide
theorem test_decode_ldDtVx : decode 0xF615 = .ok (.ldDtVx 6) := by decide
theorem test_decode_ldStVx : decode 0xF718 = .ok (.ldStVx 7) := by decide
theorem test_decode_addIVx : decode 0xF21E = .ok (.addIVx 2) := by decide
theorem test_decode_ldFVx : decode 0xF429 = .ok (.ldFVx 4) := by decide
theorem test_decode_ldBVx : decode 0xF933 = .ok (.ldBVx 9) := by decide
theorem test_decode_ldMemVx : decode 0xF155 = .ok (.ldMemVx 1) := by decide
theorem test_decode_ldVxMem : decode 0xF265 = .ok (.ldVxMem 2) := by decide
theorem test_decode_se_low_nibble : decode 0x5121 = .ok (.seVxVy 1 2) := by decide
theorem test_decode_illegal_8 : decode 0x8008 = .error (.illegal 0x8008) := by decide
theorem test_decode_illegal_E : decode 0xE000 = .error (.illegal 0xE000) := by decide
theorem test_decode_illegal_F : decode 0xF0FF = .error (.illegal 0xF0FF) := by decide
theorem test_decode_bytes : decodeBytes [0x8A, 0xB4, 0x12] = .ok (.addVxVy 0xA 0xB, [0x12]) := by decide
theorem test_decode_truncated : decodeBytes [0x8A] = .error .truncated := by decide
theorem test_decode_table_word : decodeTableWord 16 0x6A02 = some (.ldVxKk 0xA 0x02) := by decide

/-! ### Single steps, the results from spec/95_test_vectors.md -/

/-- The reset state with the word at 0x200. -/
def withWord (w : Word) : State := State.reset.withFetchWord 16 w.toNat

/-- The reset state under other parameters. -/
def under (p : Params) : State := { State.reset with params := p }

/-- The reset state as an instruction fetched at 0x200 finds it. -/
def entry : State := State.reset.setPc 0x202

/-- One step answers a next state with this property. -/
def stepGives (s : State) (p : State → Bool) : Bool :=
  match step s with
  | .next t => p t
  | .fault _ => false
  | .refused _ => false

/-- Some bytes written at an address. -/
def State.withBytes (s : State) (a : Nat) (bs : List Byte) : State := s.setMem (writeBytes s.mem a bs)

/-- V-CYC-1. -/
theorem test_fetch_last : stepGives ((State.withBytes State.reset 0xFFE [0x12, 0x00]).setPc 0xFFE) (fun t => t.pc == 0x200) = true := by decide +kernel
/-- V-CYC-2. -/
theorem test_fetch_out : stepGives (State.reset.setPc 0xFFF) (fun t => t.run == .faulted (.fetchOutOfBounds 0xFFF) && t.pc == 0xFFF) = true := by decide +kernel
/-- V-CYC-3. -/
theorem test_fetch_low : stepGives (State.reset.setPc 0x1FE) (fun t => t.run == .faulted (.pcBelowProgram 0x1FE) && t.pc == 0x1FE) = true := by decide +kernel
/-- V-CYC-4. -/
theorem test_fetch_odd : stepGives ((State.withBytes State.reset 0x201 [0x60, 0x42]).setPc 0x201) (fun t => t.reg 0 == 0x42 && t.pc == 0x203) = true := by decide +kernel
/-- V-CYC-7. -/
theorem test_illegal : stepGives (withWord 0x8008) (fun t => t.run == .faulted (.illegalOpcode 0x8008 0x200) && t.pc == 0x202) = true := by decide +kernel
/-- V-FLOW-1. -/
theorem test_sys : stepGives (withWord 0x0123) (fun t => t.run == .running && t.pc == 0x202) = true := by decide +kernel
/-- V-FLOW-2. -/
theorem test_sys_fault : stepGives ((under { hardware with sys := .fault }).withFetchWord 16 0x0123) (fun t => t.run == .faulted (.sysUnsupported 0x0123 0x200) && t.pc == 0x202) = true := by decide +kernel
/-- V-FLOW-3. -/
theorem test_jp : stepGives (withWord 0x1ABC) (fun t => t.pc == 0xABC) = true := by decide +kernel
/-- V-FLOW-4. -/
theorem test_call : stepGives (withWord 0x2300) (fun t => t.sp == 1 && t.slot 0 == 0x202 && t.pc == 0x300) = true := by decide +kernel
/-- V-FLOW-5. -/
theorem test_call_full : stepGives ((withWord 0x2300).setSp 16) (fun t => t.run == .faulted (.stackOverflow 0x200) && t.sp == 16 && t.pc == 0x202) = true := by decide +kernel
/-- V-FLOW-6. -/
theorem test_ret_empty : stepGives (withWord 0x00EE) (fun t => t.run == .faulted (.stackUnderflow 0x200) && t.pc == 0x202) = true := by decide +kernel
/-- V-FLOW-7. -/
theorem test_ret : stepGives (((withWord 0x00EE).setSp 2).setSlot 1 0x456) (fun t => t.sp == 1 && t.pc == 0x456) = true := by decide +kernel
/-- V-FLOW-9. -/
theorem test_jpV0 : stepGives ((withWord 0xBFFF).setReg 0 0xFF) (fun t => t.pc == 0x10FE) = true := by decide +kernel
/-- V-FLOW-10. -/
theorem test_se_byte : stepGives ((withWord 0x3005).setReg 0 5) (fun t => t.pc == 0x204) = true := by decide +kernel
/-- V-FLOW-11. -/
theorem test_se_byte_not : stepGives ((withWord 0x3006).setReg 0 5) (fun t => t.pc == 0x202) = true := by decide +kernel
/-- V-FLOW-13. -/
theorem test_sne_byte : stepGives ((withWord 0x4006).setReg 0 5) (fun t => t.pc == 0x204) = true := by decide +kernel
/-- V-FLOW-15. -/
theorem test_se_reg : stepGives (((withWord 0x5121).setReg 1 2).setReg 2 2) (fun t => t.pc == 0x204) = true := by decide +kernel
/-- V-FLOW-16. -/
theorem test_sne_reg : stepGives (((withWord 0x9120).setReg 1 1).setReg 2 2) (fun t => t.pc == 0x204) = true := by decide +kernel
/-- V-ALU-1. -/
theorem test_add_carry : stepGives (((withWord 0x8014).setReg 0 0xFF).setReg 1 1) (fun t => t.reg 0 == 0 && t.reg 15 == 1) = true := by decide +kernel
/-- V-ALU-4. -/
theorem test_add_into_flag : stepGives (((withWord 0x8FE4).setReg 14 0x20).setReg 15 0x10) (fun t => t.reg 15 == 0) = true := by decide +kernel
/-- V-ALU-5. -/
theorem test_sub_equal : stepGives (((withWord 0x8015).setReg 0 5).setReg 1 5) (fun t => t.reg 0 == 0 && t.reg 15 == 1) = true := by decide +kernel
/-- V-ALU-6. -/
theorem test_sub_borrow : stepGives (((withWord 0x8015).setReg 0 3).setReg 1 5) (fun t => t.reg 0 == 0xFE && t.reg 15 == 0) = true := by decide +kernel
/-- V-ALU-9. -/
theorem test_subn : stepGives (((withWord 0x8017).setReg 0 3).setReg 1 5) (fun t => t.reg 0 == 2 && t.reg 15 == 1) = true := by decide +kernel
/-- V-ALU-11. -/
theorem test_subn_borrow : stepGives (((withWord 0x8017).setReg 0 5).setReg 1 3) (fun t => t.reg 0 == 0xFE && t.reg 15 == 0) = true := by decide +kernel
/-- V-ALU-12. -/
theorem test_shr : stepGives ((withWord 0x8016).setReg 0 1) (fun t => t.reg 0 == 0 && t.reg 15 == 1) = true := by decide +kernel
/-- V-ALU-13. -/
theorem test_shr_vy : stepGives (((under { hardware with shiftSrc := .vy }).withFetchWord 16 0x8016).setReg 1 3) (fun t => t.reg 0 == 1 && t.reg 15 == 1) = true := by decide +kernel
/-- V-ALU-14. -/
theorem test_shl : stepGives ((withWord 0x801E).setReg 0 0x81) (fun t => t.reg 0 == 2 && t.reg 15 == 1) = true := by decide +kernel
/-- V-ALU-15. -/
theorem test_shl_into_flag : stepGives ((withWord 0x8F0E).setReg 15 0x80) (fun t => t.reg 15 == 1) = true := by decide +kernel
/-- V-ALU-17. -/
theorem test_add_byte : stepGives (((withWord 0x7001).setReg 0 0xFF).setReg 15 0x33) (fun t => t.reg 0 == 0 && t.reg 15 == 0x33) = true := by decide +kernel
/-- V-ALU-18. -/
theorem test_or : stepGives ((((withWord 0x8011).setReg 0 0xF0).setReg 1 0x0F).setReg 15 9) (fun t => t.reg 0 == 0xFF && t.reg 15 == 9) = true := by decide +kernel
/-- V-ALU-21. -/
theorem test_or_reset : stepGives (((((under { hardware with logicVf := .reset }).withFetchWord 16 0x8011).setReg 0 0xF0).setReg 1 0x0F).setReg 15 9) (fun t => t.reg 0 == 0xFF && t.reg 15 == 0) = true := by decide +kernel
/-- V-ALU-19. -/
theorem test_and : stepGives (((withWord 0x8012).setReg 0 0xF0).setReg 1 0x3C) (fun t => t.reg 0 == 0x30) = true := by decide +kernel
/-- V-ALU-20. -/
theorem test_xor : stepGives (((withWord 0x8013).setReg 0 0xFF).setReg 1 0x0F) (fun t => t.reg 0 == 0xF0) = true := by decide +kernel
/-- V-ALU-22. -/
theorem test_ld_reg : stepGives ((withWord 0x8010).setReg 1 0x3C) (fun t => t.reg 0 == 0x3C && t.reg 1 == 0x3C) = true := by decide +kernel
/-- V-ALU-23. -/
theorem test_ld_byte : stepGives (withWord 0x6A02) (fun t => t.reg 10 == 2) = true := by decide +kernel
/-- V-ALU-25, the draw counted; the drawn byte is free. -/
theorem test_rnd_draws : stepGives (withWord 0xC000) (fun t => t.draws == 1 && t.pc == 0x202) = true := by decide +kernel
/-- V-DRW-2. -/
theorem test_drw_wrap : stepGives ((State.withBytes ((withWord 0xD012).setReg 1 31) 0x300 [0x80, 0x80]).setI 0x300) (fun t => t.disp[31][0] && t.disp[0][0] && !t.disp[1][0] && t.reg 15 == 0) = true := by decide +kernel
/-- V-DRW-3. -/
theorem test_drw_collide : stepGives (((State.withBytes ((withWord 0xD011).setReg 0 2) 0x300 [0xF0]).setI 0x300).setDisp (drawSprite 0 0 [0xF0] clearDisplay).1) (fun t => t.disp[0][0] && t.disp[0][1] && !t.disp[0][2] && !t.disp[0][3] && t.disp[0][4] && t.disp[0][5] && t.reg 15 == 1) = true := by decide +kernel
/-- V-DRW-9. -/
theorem test_cls : stepGives ((withWord 0x00E0).setDisp (drawSprite 0 0 [0xF0] clearDisplay).1) (fun t => !t.disp[0][0] && !t.disp[0][3]) = true := by decide +kernel
/-- V-KEY-1. -/
theorem test_skp : stepGives (((withWord 0xE09E).setReg 0 5).writeKey 5 true) (fun t => t.pc == 0x204) = true := by decide +kernel
/-- V-KEY-4. -/
theorem test_sknp : stepGives (((withWord 0xE0A1).setReg 0 5).writeKey 5 true) (fun t => t.pc == 0x202) = true := by decide +kernel
/-- V-KEY-6. -/
theorem test_skp_mask : stepGives ((((under { hardware with keyRange := .mask }).withFetchWord 16 0xE09E).setReg 0 0x15).writeKey 5 true) (fun t => t.pc == 0x204) = true := by decide +kernel
/-- V-KEY-7, step 1. -/
theorem test_key_wait : stepGives (((withWord 0xF30A).writeKey 3 true).writeKey 9 true) (fun t => t.run == .waitingForKey 3 && t.pc == 0x200) = true := by decide +kernel
/-- V-KEY-7, step 2. -/
theorem test_key_poll : stepGives (((State.reset.setRun (.waitingForKey 3)).writeKey 3 true).writeKey 9 true) (fun t => t.run == .running && t.reg 3 == 3 && t.pc == 0x202) = true := by decide +kernel
/-- V-TMR-1. -/
theorem test_ld_dt : stepGives ((withWord 0xF215).setReg 2 0x3C) (fun t => t.dt == 0x3C) = true := by decide +kernel
/-- V-TMR-2. -/
theorem test_ld_st : stepGives ((withWord 0xF218).setReg 2 2) (fun t => t.st == 2 && soundOn t) = true := by decide +kernel
/-- V-TMR-4. -/
theorem test_read_dt : stepGives ((withWord 0xF407).setDt 9) (fun t => t.reg 4 == 9) = true := by decide +kernel
/-- V-MEM-1. -/
theorem test_ld_i : stepGives (withWord 0xA123) (fun t => t.i == 0x123) = true := by decide +kernel
/-- V-MEM-3. -/
theorem test_add_i_wrap : stepGives (((withWord 0xF01E).setI 0xFFFF).setReg 0 1) (fun t => t.i == 0) = true := by decide +kernel
/-- V-MEM-5. -/
theorem test_ld_f : stepGives ((withWord 0xF029).setReg 0 0xF) (fun t => t.i == 0x09B) = true := by decide +kernel
/-- V-MEM-6. -/
theorem test_ld_f_range : stepGives ((withWord 0xF029).setReg 0 0x10) (fun t => t.run == .faulted (.fontDigitOutOfRange 0x10 0x200) && t.i == 0) = true := by decide +kernel
/-- V-MEM-7. -/
theorem test_bcd : stepGives (((withWord 0xF033).setReg 0 0xFF).setI 0x300) (fun t => t.byteAt 0x300 == 2 && t.byteAt 0x301 == 5 && t.byteAt 0x302 == 5 && t.i == 0x300) = true := by decide +kernel
/-- V-MEM-11. -/
theorem test_bcd_reserved : stepGives (((withWord 0xF033).setReg 0 1).setI 0x1FF) (fun t => t.run == .faulted (.reservedWrite 0x1FF) && t.byteAt 0x200 == 0xF0) = true := by decide +kernel
/-- the example of R247. -/
theorem test_dump : stepGives (((withWord 0xF155).setReg 0 0x12 |>.setReg 1 0x34).setI 0x310) (fun t => t.byteAt 0x310 == 0x12 && t.byteAt 0x311 == 0x34 && t.byteAt 0x312 == 0 && t.i == 0x310) = true := by decide +kernel
/-- V-MEM-18. -/
theorem test_load_font : stepGives ((withWord 0xF465).setI 0x050) (fun t => t.reg 0 == 0xF0 && t.reg 1 == 0x90 && t.reg 4 == 0xF0 && t.reg 5 == 0) = true := by decide +kernel
/-- V-MEM-16. -/
theorem test_load_increment : stepGives ((State.withBytes ((under { hardware with memI := .increment }).withFetchWord 16 0xF265) 0x300 [1, 2, 3]).setI 0x300) (fun t => t.reg 2 == 3 && t.i == 0x303) = true := by decide +kernel
/-- V-TMR-3, V-TMR-5. -/
theorem test_tick : (tickTimers (State.reset.setSt 1)).st = 0 ∧ soundOn (tickTimers (State.reset.setSt 1)) = false ∧
    (tickTimers State.reset).dt = 0 := by decide
/-- L1-12. -/
theorem test_rom_too_large : loadProgram (List.replicate 3585 0) State.reset = .error (.romTooLarge 3585) := by decide +kernel

/-! ### The counterexample of log 10: R203's inference about the second draw

A set pixel under the sprite is erased by the first draw and set again by the second, which erases nothing. -/

/-- Pixel (0, 0) set, I at a byte 0x80, the word D011 at 0x200. -/
def onePixel : State :=
  ((State.withBytes (withWord 0xD011) 0x300 [0x80]).setI 0x300).setDisp (Display.setPixel clearDisplay 0 0 true)

theorem test_second_draw_erases_nothing :
    stepGives onePixel (fun t => t.reg 15 == 1 && !t.disp[0][0] &&
      stepGives (t.setPc 0x200) fun u => u.reg 15 == 0 && u.disp[0][0]) = true := by decide +kernel

/-! ### Witnesses: a state and operands that meet an obligation's hypotheses, one per clause, at the edges of each range -/

/-- A run of ROM bytes at 0x200 from reset. -/
def rom (bs : List Byte) : State := State.withBytes State.reset 0x200 bs

theorem witness_ConstructedState : ∃ (p : Params) (font : List Byte), p.wf ∧ p.fontBase = 0x1B0 ∧ font.length = 80 :=
  ⟨{ hardware with fontBase := 0x1B0 }, fontBytes, by decide⟩

theorem witness_LoadProgramAllOrNothing :
    (∃ r : List Byte, r.length = 3585) ∧ (∃ r : List Byte, r.length = 3584) ∧ (∃ r : List Byte, r.length = 0) :=
  ⟨⟨List.replicate 3585 0, List.length_replicate⟩, ⟨List.replicate 3584 0, List.length_replicate⟩, ⟨[], rfl⟩⟩

theorem witness_BootFetchesFirstRomWord : ∃ r : List Byte, r.length + 2 = 3584 := ⟨List.replicate 3582 0, by rw [List.length_replicate]⟩

theorem witness_JumpSetsPc : (rom [0x12, 0x00]).run = .running ∧
    fetch (rom [0x12, 0x00]) = .ok (u16 (0x1000 + (0x200 : Addr12).toNat)) ∧
    (rom [0x12, 0x00]).pc.toNat = (0x200 : Addr12).toNat := by decide +kernel

theorem witness_CallPushesReturnAddress_push : entry.pc = 0x200 + 2 ∧ (entry.setSp 0).sp.toNat < 16 ∧
    (entry.setSp 15).sp.toNat < 16 := by decide

theorem witness_CallPushesReturnAddress_full : (entry.setSp 16).pc = 0x200 + 2 ∧ (entry.setSp 16).sp.toNat = 16 := by decide

theorem witness_RetPopsReturnAddress_pop : entry.pc = 0x200 + 2 ∧ (entry.setSp 1).sp.toNat = (0 : Nibble).val + 1 ∧
    (entry.setSp 16).sp.toNat = (15 : Nibble).val + 1 := by decide

theorem witness_RetPopsReturnAddress_empty : entry.pc = 0x200 + 2 ∧ entry.sp.toNat = 0 := by decide

theorem witness_AbsentStackSlotStops : 17 ≤ (entry.setSp 17).sp.toNat ∧ 17 ≤ (entry.setSp 255).sp.toNat := by decide

/-- L1-9. -/
theorem witness_CallThenRetReturns : ∃ (s : State) (w : Word) (nnn : Addr12), s.run = .running ∧ fetch s = .ok w ∧
    decode w = .ok (.call nnn) ∧ s.sp.toNat < 16 ∧ fetchable s.params nnn.toNat ∧ s.byteAt nnn.toNat = 0x00 ∧
    s.byteAt (nnn.toNat + 1) = 0xEE :=
  ⟨rom [0x22, 0x04, 0x00, 0x00, 0x00, 0xEE], 0x2204, 0x204, by decide +kernel⟩

theorem witness_SkipOnByte : entry.pc = 0x200 + 2 ∧ (entry.reg 15).toNat = (0 : Byte).toNat ∧
    (entry.reg 15).toNat ≠ (0xFF : Byte).toNat := by decide

theorem witness_SkipOnRegister : entry.pc = 0x200 + 2 ∧ (entry.reg 0).toNat = (entry.reg 15).toNat ∧
    ((entry.setReg 0 1).reg 0).toNat ≠ ((entry.setReg 0 1).reg 15).toNat := by decide

theorem witness_SysIsNopOrUnsupported_word :
    (0xFFF : Addr12).toNat ≠ 0x0E0 ∧ (0xFFF : Addr12).toNat ≠ 0x0EE ∧ (0 : Addr12).toNat ≠ 0x0E0 ∧ (0 : Addr12).toNat ≠ 0x0EE := by
  decide

theorem witness_SysIsNopOrUnsupported_policy : entry.pc = 0x200 + 2 ∧ entry.params.sys = .nop ∧
    ((under { hardware with sys := .fault }).setPc 0x202).pc = 0x200 + 2 ∧
    ((under { hardware with sys := .fault }).setPc 0x202).params.sys = .fault := by decide

theorem witness_LogicIsBitwise : ∀ k : Fin 3, ∃ (i : Instr) (op : Bool → Bool → Bool) (sub : Nat), sub = k.val + 1 ∧
    (i, op, sub) ∈ [(Instr.orVxVy 15 0, (· || ·), 1), (Instr.andVxVy 15 0, (· && ·), 2), (Instr.xorVxVy 15 0, (· ^^ ·), 3)]
  | 0 => ⟨_, _, 1, rfl, List.mem_cons_self⟩
  | 1 => ⟨_, _, 2, rfl, List.mem_cons_of_mem _ List.mem_cons_self⟩
  | 2 => ⟨_, _, 3, rfl, List.mem_cons_of_mem _ (List.mem_cons_of_mem _ List.mem_cons_self)⟩

theorem witness_ShiftsMoveOneBitIntoVF : ∃ (s : State) (v : Nat), s.params.shiftSrc = .vy ∧
    v = (if s.params.shiftSrc = .vx then (s.reg 0).toNat else (s.reg 1).toNat) ∧ v = 0x81 :=
  ⟨(under { hardware with shiftSrc := .vy }).setReg 1 0x81, 0x81, by decide⟩

theorem witness_DrwXorsWrappedSprite : (entry.setI 0xFF1).i.toNat + (15 : Nibble).val ≤ 0x1000 ∧
    (entry.setI 0xFFF).i.toNat + (1 : Nibble).val ≤ 0x1000 := by decide

/-- With N = 0 the statement's premise holds for an I outside memory, and the draw completes. -/
theorem witness_DrwXorsWrappedSprite_no_rows : 0xFFF < (entry.setI 0xFFFF).i.toNat ∧
    ((0 : Nibble).val = 0 ∨ (entry.setI 0xFFFF).i.toNat + (0 : Nibble).val ≤ 0x1000) ∧
    ∃ t, exec (.drw 0 1 0) (entry.setI 0xFFFF) = .next t ∧ t.reg 15 = 0 := ⟨by decide, .inl rfl, _, rfl, by decide +kernel⟩

theorem witness_DrwOutsideMemoryFaults_edge : (entry.setI 0xFFF).i.toNat ≤ 0x1000 ∧
    0x1000 < (entry.setI 0xFFF).i.toNat + (2 : Nibble).val ∧
    (∀ b, (entry.setI 0xFFF).i.toNat ≤ b → b < 0x1000 → b ≤ 0xFFF) := ⟨by decide, by decide, by intros; omega⟩

theorem witness_DrwOutsideMemoryFaults_far : (entry.setI 0xFFFF).i.toNat ≤ 0xFFFF ∧
    0xFFFF < (entry.setI 0xFFFF).i.toNat + (1 : Nibble).val ∧
    (∀ b, (entry.setI 0xFFFF).i.toNat ≤ b → b < 0xFFFF → b ≤ 0xFFF) :=
  ⟨by decide, by decide, fun b h h' => absurd (Nat.lt_of_le_of_lt h h') (by decide)⟩

theorem witness_DrwTwiceRestoresDisplay : ∃ t, exec (.drw 0 1 1) onePixel = .next t ∧
    (t.reg 0).toNat % 64 = (onePixel.reg 0).toNat % 64 ∧ (t.reg 1).toNat % 32 = (onePixel.reg 1).toNat % 32 ∧
    onePixel.i.toNat + (1 : Nibble).val ≤ 0x1000 := ⟨_, rfl, by decide +kernel⟩

theorem witness_KeySkipsReadTheKey_key : entry.pc = 0x200 + 2 ∧ ((entry.setReg 0 15).reg 0).toNat = (15 : Nibble).val ∧
    (under { hardware with keyRange := .mask }).params.keyRange = .mask ∧
    (((under { hardware with keyRange := .mask }).setReg 0 0xF0).reg 0).toNat % 16 = (0 : Nibble).val := by decide

theorem witness_KeySkipsReadTheKey_range : (entry.setReg 0 16).pc = 0x200 + 2 ∧ 15 < ((entry.setReg 0 16).reg 0).toNat ∧
    (entry.setReg 0 16).params.keyRange = .fault := by decide

theorem witness_KeyWaitHoldsPc : entry.pc = 0x200 + 2 := by decide

theorem witness_PollCompletesOnLeastKey_none :
    (State.reset.setRun (.waitingForKey 15)).run = .waitingForKey 15 ∧
    ∀ k, (State.reset.setRun (.waitingForKey 15)).pressed k = false := by decide +kernel

theorem witness_PollCompletesOnLeastKey_some : ∃ s : State, s.run = .waitingForKey 0 ∧ s.pressed 15 = true ∧
    ∀ j : Nibble, j < 15 → s.pressed j = false :=
  ⟨(State.reset.setRun (.waitingForKey 0)).writeKey 15 true, by decide +kernel⟩

theorem witness_LoadFontAddress_digit : entry.pc = 0x200 + 2 ∧ entry.params.wf ∧ ((entry.setReg 0 15).reg 0).toNat ≤ 15 := by decide

theorem witness_LoadFontAddress_raw : ∃ s : State, s.pc = 0x200 + 2 ∧ s.params.wf ∧ s.params.fontDigit = .raw ∧
    (s.reg 0).toNat = 255 := ⟨((under { hardware with fontDigit := .raw }).setPc 0x202).setReg 0 255, by decide⟩

theorem witness_LoadFontAddress_mask : ∃ s : State, s.pc = 0x200 + 2 ∧ s.params.wf ∧ s.params.fontDigit = .mask ∧
    15 < (s.reg 0).toNat := ⟨((under { hardware with fontDigit := .mask }).setPc 0x202).setReg 0 16, by decide⟩

theorem witness_LoadFontAddress_fault : (entry.setReg 0 16).pc = 0x200 + 2 ∧ (entry.setReg 0 16).params.wf ∧
    15 < ((entry.setReg 0 16).reg 0).toNat ∧ (entry.setReg 0 16).params.fontDigit = .fault := by decide

theorem witness_BcdStoresDecimalDigits_store : (entry.setI 0x200).i.toNat + 2 ≤ 0xFFF ∧ 0x200 ≤ (entry.setI 0x200).i.toNat ∧
    (entry.setI 0xFFD).i.toNat + 2 ≤ 0xFFF ∧ 0x200 ≤ (entry.setI 0xFFD).i.toNat := by decide

theorem witness_BcdStoresDecimalDigits_allow : ∃ s : State, s.i.toNat + 2 ≤ 0xFFF ∧ s.i.toNat < 0x200 ∧
    s.params.reservedWrite = .allow := ⟨under { hardware with reservedWrite := .allow }, by decide⟩

theorem witness_BcdStoresDecimalDigits_errors : 0xFFF < (entry.setI 0xFFE).i.toNat + 2 ∧
    (entry.setI 0x1FF).i.toNat < 0x200 ∧ (entry.setI 0x1FF).params.reservedWrite = .fault := by decide

theorem witness_DumpStoresV0ToVx_store : (entry.setI 0xFF0).i.toNat + (15 : Nibble).val ≤ 0xFFF ∧
    0x200 ≤ (entry.setI 0xFF0).i.toNat ∧ (entry.setI 0x200).i.toNat + (0 : Nibble).val ≤ 0xFFF ∧
    0x200 ≤ (entry.setI 0x200).i.toNat := by decide

theorem witness_DumpStoresV0ToVx_errors : 0xFFF < (entry.setI 0xFF1).i.toNat + (15 : Nibble).val ∧
    (entry.setI 0x1FF).i.toNat < 0x200 ∧ (entry.setI 0x1FF).params.reservedWrite = .fault := by decide

theorem witness_LoadFillsV0ToVx : (entry.setI 0xFF0).i.toNat + (15 : Nibble).val ≤ 0xFFF ∧
    0xFFF < (entry.setI 0xFF1).i.toNat + (15 : Nibble).val := by decide

theorem witness_StoredCodeIsFetchedNext : ∃ s : State, 1 ≤ (1 : Nibble).val ∧ s.i = s.pc ∧ 0x200 ≤ s.pc.toNat ∧
    s.pc.toNat + (1 : Nibble).val ≤ 0xFFF := ⟨entry.setI 0x202, by decide⟩

theorem witness_StepRunsDecodedInstruction : ∃ (s : State) (w : Word) (i : Instr), s.run = .running ∧
    fetchable s.params s.pc.toNat ∧
    w.toNat = (s.byteAt s.pc.toNat).toNat * 256 + (s.byteAt (s.pc.toNat + 1)).toNat ∧ decode w = .ok i :=
  ⟨(State.withBytes State.reset 0xFFE [0x6A, 0x02]).setPc 0xFFE, 0x6A02, .ldVxKk 0xA 0x02, by decide +kernel⟩

theorem witness_FetchFaultsHoldPc : (State.reset.setPc 0xFFF).run = .running ∧ 0xFFF < (State.reset.setPc 0xFFF).pc.toNat + 1 ∧
    (State.reset.setPc 0x1FF).run = .running ∧ (State.reset.setPc 0x1FF).pc.toNat < 0x200 ∧
    (State.reset.setPc 0x1FF).params.lowFetch = .fault := by decide

theorem witness_IllegalWordFaults : ∃ (s : State) (w : Word), s.run = .running ∧ fetchable s.params s.pc.toNat ∧
    w.toNat = (s.byteAt s.pc.toNat).toNat * 256 + (s.byteAt (s.pc.toNat + 1)).toNat ∧ ∀ i, decode w ≠ .ok i := by
  have h : decode 0x8008 = .error (.illegal 0x8008) := by decide
  exact ⟨rom [0x80, 0x08], 0x8008, by decide, by decide, by decide +kernel, fun i e => by rw [h] at e; cases e⟩

theorem witness_FaultedIsAbsorbing : (State.reset.setRun (.faulted (.stackUnderflow 0x200))).run =
    .faulted (.stackUnderflow 0x200) := by decide

theorem witness_FaultingStepWritesNothing_fetch : ∃ t e, (State.reset.setPc 0xFFF).run = .running ∧
    step (State.reset.setPc 0xFFF) = .next t ∧ t.run = .faulted e ∧
    ¬ fetchable (State.reset.setPc 0xFFF).params (State.reset.setPc 0xFFF).pc.toNat := ⟨_, _, rfl, rfl, rfl, by decide⟩

theorem witness_FaultingStepWritesNothing_execute : ∃ t e, (withWord 0x00EE).run = .running ∧
    step (withWord 0x00EE) = .next t ∧ t.run = .faulted e ∧
    fetchable (withWord 0x00EE).params (withWord 0x00EE).pc.toNat := ⟨_, _, rfl, rfl, rfl, by decide +kernel⟩

theorem halted_0x200 : haltedAtPc (rom [0x12, 0x00]) := ⟨rfl, 0x1200, 0x200, by decide +kernel⟩

/-- Waiting for a key at 0x200, with a jump to itself at 0x202. -/
def waiting : State := (rom [0xF0, 0x0A, 0x12, 0x02]).setRun (.waitingForKey 0)

/-- The host presses key 7, then keeps stepping. -/
def pressThenStep : Schedule
  | 0 => .setKey 7 true
  | _ + 1 => .step

/-- As in program P4 of the vectors, a key the host sets between two steps brings the end of the run. -/
theorem ends_after_key : endsAfter pressThenStep 2 waiting (poll 0 (waiting.writeKey 7 true)) := by
  have no : ∀ t : State, t.run = .waitingForKey 0 → ¬ runEnded t := by
    rintro t h (⟨h', -⟩ | ⟨e, h'⟩) <;> rw [h] at h' <;> cases h'
  refine ⟨rfl, .inl ⟨by decide +kernel, 0x1202, 0x202, by decide +kernel⟩, fun m hm u hu => ?_⟩
  match m, hm with
  | 0, _ => cases hu; exact no _ rfl
  | 1, _ => cases hu; exact no _ rfl

theorem witness_EndOfRunIsStableAndUnique : runEnded (rom [0x12, 0x00]) ∧
    runEnded (State.reset.setRun (.faulted (.stackUnderflow 0x200))) ∧
    endsAfter (fun _ => .step) 0 (rom [0x12, 0x00]) (rom [0x12, 0x00]) ∧ ∃ f n s t, endsAfter f (n + 1) s t :=
  ⟨.inl halted_0x200, .inr ⟨_, rfl⟩, ⟨rfl, .inl halted_0x200, fun _ h => absurd h (Nat.not_lt_zero _)⟩,
    _, _, _, _, ends_after_key⟩

theorem witness_DecodeOfEncode : (Instr.sys 0xFFF).wellFormed = true ∧ (Instr.drw 15 15 15).wellFormed = true := by decide

theorem witness_EncodeOfDecode : decode 0x8AB4 = .ok (.addVxVy 0xA 0xB) ∧ (0x8AB4 : Word).toNat / 4096 ≠ 5 ∧
    (0x8AB4 : Word).toNat / 4096 ≠ 9 ∧ decode 0x512F = .ok (.seVxVy 1 2) ∧ (0x512F : Word).toNat / 4096 = 5 := by decide

theorem witness_DecodeAgreesWithTable : decode 0x8AB4 = .ok (.addVxVy 0xA 0xB) ∧
    decode 0x8008 = .error (.illegal 0x8008) := by decide

theorem witness_OpcodeRowsAreDisjoint : ∃ (w : Word) (r q : OpRow), r ∈ opcodeRows ∧ q ∈ opcodeRows ∧ r.holds w = true ∧
    q.holds w = true ∧ sysRow.holds w = true := ⟨0x00EE, ⟨2, 0xFFFF, 0x00EE⟩, ⟨2, 0xFFFF, 0x00EE⟩, by decide⟩

/-- The invariant's conditions at the reset state, each by evaluation. -/
theorem reset_inv : Inv State.reset where
  mem_wf := by decide
  sp_le := by decide
  slot_le := by decide +kernel
  pc_le := by decide
  wait_pc := by intro x h; cases h
  fault_of_step := by intro e h; cases h
  params_wf := by decide

theorem witness_StepKeepsInv : ∃ t, Inv State.reset ∧ step State.reset = .next t := ⟨_, reset_inv, rfl⟩

theorem witness_BootAndScheduleKeepInv : hardware.wf ∧ fontBytes.length = 80 ∧
    (∃ t, boot hardware fontBytes (fun _ => 0) [0x12, 0x00] = .ok t) ∧
    ∃ t, Inv State.reset ∧ runOps [.step, .tickTimers, .setKey 15 true] State.reset = .next t :=
  ⟨by decide, by decide, ⟨_, rfl⟩, _, reset_inv, rfl⟩

theorem witness_StepAlwaysAnswers : Inv State.reset := reset_inv

theorem witness_ReservedRegionIsNeverWritten : ∃ t, (withWord 0xF055).params.reservedWrite = .fault ∧
    step (withWord 0xF055) = .next t ∧ 0x1FF < 0x200 := ⟨_, rfl, rfl, by decide⟩

/-- A dump under `Q_MEM_I = INCREMENT` changes memory and I. -/
theorem witness_OnlyTheseInstructionsWrite : ∃ s t : State, exec (.ldMemVx 0) s = .next t ∧ ¬ Component.memory.same s t ∧
    ¬ Component.index.same s t := by
  refine ⟨((under { hardware with memI := .increment }).setReg 0 0xAB).setI 0x300, _, rfl, fun h => ?_, ?_⟩
  · exact absurd (h 0x300) (by decide +kernel)
  · intro h
    exact (show (0x301 : Word) ≠ 0x300 by decide) h

theorem witness_OnlyTheseRegistersChange : ∃ t, exec (.ldVxKk 15 1) entry = .next t ∧ t.reg 15 ≠ entry.reg 15 :=
  ⟨_, rfl, by decide +kernel⟩

theorem witness_PcFollowsTheLaw : ∃ t u v, exec (.jp 0x300) entry = .next t ∧ t.pc ≠ entry.pc ∧
    exec (.ldVxK 0) entry = .next u ∧ u.pc ≠ entry.pc ∧ exec (.seVxKk 0 0) entry = .next v ∧ v.pc ≠ entry.pc :=
  ⟨_, _, _, rfl, by decide, rfl, by decide, rfl, by decide +kernel⟩

theorem witness_InfiniteSchedulesRun : Inv State.reset := reset_inv

/-- With key 7 held: one poll, then the jump to itself at 0x202. -/
def heldRun : Nat → State
  | 0 => waiting.writeKey 7 true
  | _ + 1 => poll 0 (waiting.writeKey 7 true)

theorem held_jump_repeats : step (poll 0 (waiting.writeKey 7 true)) = .next (poll 0 (waiting.writeKey 7 true)) := rfl

theorem held_key : (waiting.writeKey 7 true).pressed 7 = true ∧ (poll 0 (waiting.writeKey 7 true)).pressed 7 = true := by
  decide +kernel

theorem witness_ProgressIsTheHosts_key : ∃ (f : Schedule) (run : Nat → State), infiniteRun f run ∧
    (run 0).run = .waitingForKey 0 ∧ stepsForever f ∧ ∀ n, 0 ≤ n → ∃ k, (run n).pressed k = true := by
  refine ⟨fun _ => .step, heldRun, fun n => ?_, rfl, fun n => ⟨n, le_rfl, rfl⟩, fun n _ => ⟨7, ?_⟩⟩
  · cases n with
    | zero => rfl
    | succ n => exact held_jump_repeats
  · cases n with
    | zero => exact held_key.1
    | succ n => exact held_key.2

theorem no_key : ∀ k, waiting.pressed k = false := by decide +kernel

theorem witness_ProgressIsTheHosts_no_key : ∃ (f : Schedule) (run : Nat → State), infiniteRun f run ∧
    (run 0).run = .waitingForKey 0 ∧ ∀ n k, (run n).pressed k = false :=
  ⟨fun _ => .step, fun _ => waiting, fun _ => rfl, rfl, fun _ => no_key⟩

theorem witness_ProgressIsTheHosts_no_step : ∃ (f : Schedule) (run : Nat → State), infiniteRun f run ∧
    (run 0).run = .waitingForKey 0 ∧ ∀ n, f n ≠ .step :=
  ⟨fun _ => .read .pixels, fun _ => waiting, fun _ => rfl, rfl, fun _ => nofun⟩

theorem witness_ProgressIsTheHosts_ticks : ∃ (f : Schedule) (run : Nat → State), infiniteRun f run ∧ ticksForever f ∧
    (run 0).dt = 1 ∧ ∀ n, f n = .step → (run (n + 1)).dt = (run n).dt := by
  refine ⟨fun _ => .tickTimers, fun n => if n = 0 then State.reset.setDt 1 else State.reset, fun n => ?_,
    fun n => ⟨n, le_rfl, rfl⟩, rfl, fun n h => by cases h⟩
  cases n <;> rfl

/-- The ports read what R122 names, and reading is no change. -/
theorem test_read_ports : readPort .soundTimer (State.reset.setSt 2) = .byte 2 ∧
    readPort .soundOn (State.reset.setSt 2) = .level true ∧
    readPort .stepResult (State.reset.setRun (.faulted (.stackUnderflow 0x200))) = .result (some (.stackUnderflow 0x200)) :=
  ⟨rfl, rfl, rfl⟩

end Sys2Proof.Tests
end

section
/-! The flow instructions that cannot fault and read at most one register (41_flow.md R143, R151, R152). -/

namespace Sys2Proof.Machine

variable {s : State} {a : Word}

/-! ### The words -/

theorem decodesTo_jp (nnn : Addr12) : decodesTo (0x1000 + nnn.toNat) (.jp nnn) := by
  obtain ⟨hop, hnnn⟩ := fields_u16_NNN (n := 0x1000 + nnn.toNat) (op := 0x1) (by decide) rfl
  simp only [decodesTo, decode, hop, hnnn]

theorem decodesTo_seVxKk (x : Nibble) (kk : Byte) : decodesTo (0x3000 + 256 * x.val + kk.toNat) (.seVxKk x kk) := by
  obtain ⟨hop, hx, hkk⟩ :=
    fields_u16_XKK (n := 0x3000 + 256 * x.val + kk.toNat) (op := 0x3) (x := x) (kk := kk) (by decide) (by omega)
  simp only [decodesTo, decode, hop, hx, hkk]

theorem decodesTo_sneVxKk (x : Nibble) (kk : Byte) : decodesTo (0x4000 + 256 * x.val + kk.toNat) (.sneVxKk x kk) := by
  obtain ⟨hop, hx, hkk⟩ :=
    fields_u16_XKK (n := 0x4000 + 256 * x.val + kk.toNat) (op := 0x4) (x := x) (kk := kk) (by decide) (by omega)
  simp only [decodesTo, decode, hop, hx, hkk]

/-! ### The meanings -/

theorem exec_jp (nnn : Addr12) (s : State) : exec (.jp nnn) s = .next (s.setPc (zext16 nnn)) := rfl

theorem exec_seVxKk (x : Nibble) (kk : Byte) (s : State) :
    exec (.seVxKk x kk) s = .next (skipIf (s.reg x == kk) s) := rfl

theorem exec_sneVxKk (x : Nibble) (kk : Byte) (s : State) :
    exec (.sneVxKk x kk) s = .next (skipIf (s.reg x != kk) s) := rfl

/-! ### The program counter after a jump and after a skip -/

theorem State.setPc_setPc (s : State) (v w : Word) : (s.setPc v).setPc w = s.setPc w := rfl

theorem State.setPc_self (s : State) : s.setPc s.pc = s := rfl

/-- A jump forgets the pre-increment of R112. -/
theorem exec_jp_advancePc (nnn : Addr12) (s : State) : exec (.jp nnn) (advancePc s) = .next (s.setPc (zext16 nnn)) := by
  rw [exec_jp, advancePc, State.setPc_setPc]

/-- R143, R302: at a jump to its own address a step changes no state. -/
theorem step_haltedAtPc (h : haltedAtPc s) : step s = .next s := by
  obtain ⟨hrun, w, nnn, hfetch, hdecode, htarget⟩ := h
  rw [step_running hrun, runCycle_ok hfetch hdecode, exec_jp_advancePc, htarget, State.setPc_self]

/-- R150: the instruction at `a` goes on at `a + 4` when the skip's condition holds, else at `a + 2`. -/
theorem skipIf_pc (h : s.pc = a + 2) (c : Bool) : (skipIf c s).pc = if c = true then a + 4 else a + 2 := by
  cases c with
  | false => exact h
  | true =>
    calc s.pc + 2 = a + 2 + 2 := by rw [h]
      _ = a + 4 := BitVec.add_assoc a 2 2

/-! ### The obligations -/

/-- Settles O5: PC is written last, so a jump to its own address undoes the pre-increment and the machine is halted at PC. -/
theorem jumpSetsPc : Obligations.JumpSetsPc := by
  intro nnn s
  refine ⟨decodesTo_jp nnn, ⟨_, exec_jp nnn s, ?_, unchangedBut_setPc s _⟩, fun hrun hfetch hpc => ?_⟩
  · rw [State.setPc_pc, zext16_addr_toNat]
  · have htarget : zext16 nnn = s.pc := BitVec.eq_of_toNat_eq (by rw [zext16_addr_toNat, hpc])
    exact step_haltedAtPc ⟨hrun, _, nnn, hfetch, decodesTo_jp nnn, htarget⟩

/-- Settles O11: both instructions are one `skipIf`, on equality and on inequality. -/
theorem skipOnByte : Obligations.SkipOnByte := by
  intro x kk s a hpc
  refine ⟨decodesTo_seVxKk x kk, decodesTo_sneVxKk x kk,
    ⟨_, exec_seVxKk x kk s, ?_, unchangedBut_skipIf _ s⟩, ⟨_, exec_sneVxKk x kk s, ?_, unchangedBut_skipIf _ s⟩⟩
  · simp only [skipIf_pc hpc, beq_iff_eq, BitVec.toNat_inj]
  · simp only [skipIf_pc hpc, bne_iff_ne, ne_eq, BitVec.toNat_inj, ite_not]

end Sys2Proof.Machine
end

section
/-! The register loads and the addition of a byte (42_alu.md R171, R172, R173): each is one `setReg`. -/

namespace Sys2Proof.Machine

/-! ### The words -/

theorem decodesTo_ldVxKk (x : Nibble) (kk : Byte) : decodesTo (0x6000 + 256 * x.val + kk.toNat) (.ldVxKk x kk) := by
  obtain ⟨hop, hx, hkk⟩ :=
    fields_u16_XKK (n := 0x6000 + 256 * x.val + kk.toNat) (op := 0x6) (x := x) (kk := kk) (by decide) (by omega)
  simp only [decodesTo, decode, hop, hx, hkk]

theorem decodesTo_addVxKk (x : Nibble) (kk : Byte) : decodesTo (0x7000 + 256 * x.val + kk.toNat) (.addVxKk x kk) := by
  obtain ⟨hop, hx, hkk⟩ :=
    fields_u16_XKK (n := 0x7000 + 256 * x.val + kk.toNat) (op := 0x7) (x := x) (kk := kk) (by decide) (by omega)
  simp only [decodesTo, decode, hop, hx, hkk]

theorem decodesTo_ldVxVy (x y : Nibble) : decodesTo (0x8000 + 256 * x.val + 16 * y.val) (.ldVxVy x y) := by
  obtain ⟨hop, hx, hy, -, hlow⟩ :=
    fields_u16_XYN (v := 0x8000 + 256 * x.val + 16 * y.val) (op := 0x8) (x := x) (y := y) (n := 0) (by decide)
      (by rw [Fin.val_zero]; omega)
  simp only [decodesTo, decode, hop, decode8, hlow, Fin.val_zero, hx, hy]

/-! ### The meanings -/

theorem exec_ldVxKk (x : Nibble) (kk : Byte) (s : State) : exec (.ldVxKk x kk) s = .next (s.setReg x kk) := rfl

theorem exec_ldVxVy (x y : Nibble) (s : State) : exec (.ldVxVy x y) s = .next (s.setReg x (s.reg y)) := rfl

theorem exec_addVxKk (x : Nibble) (kk : Byte) (s : State) :
    exec (.addVxKk x kk) s = .next (s.setReg x (u8 ((s.reg x).toNat + kk.toNat))) := rfl

/-! ### A register after a wrapping write -/

/-- R11: `u8` wraps, where `u8_toNat` asks that nothing is lost. -/
theorem u8_toNat_mod (n : Nat) : (u8 n).toNat = n % 256 := BitVec.toNat_ofNat n 8

theorem State.reg_setReg_u8_toNat (s : State) (x r : Nibble) (n : Nat) :
    ((s.setReg x (u8 n)).reg r).toNat = if r = x then n % 256 else (s.reg r).toNat := by
  rw [State.reg_setReg, apply_ite BitVec.toNat, u8_toNat_mod]

/-! ### The obligations -/

/-- Settles O14: each load is one `setReg`, whose value is read before the write, so X = Y needs no case of its own. -/
theorem loadsCopyTheirSource : Obligations.LoadsCopyTheirSource := by
  intro x y kk s
  exact ⟨decodesTo_ldVxKk x kk, decodesTo_ldVxVy x y,
    ⟨_, exec_ldVxKk x kk s, fun r => State.reg_setReg s x r kk, unchangedBut_setReg s x kk⟩,
    ⟨_, exec_ldVxVy x y s, fun r => State.reg_setReg s x r (s.reg y), unchangedBut_setReg s x (s.reg y)⟩⟩

/-- Settles O15: the sum goes through `u8` into Vx by one `setReg`, and no flag is written. -/
theorem addByteWrapsWithoutFlag : Obligations.AddByteWrapsWithoutFlag := by
  intro x kk s
  exact ⟨decodesTo_addVxKk x kk, _, exec_addVxKk x kk s, fun r => State.reg_setReg_u8_toNat s x r _, unchangedBut_setReg s x _⟩

end Sys2Proof.Machine
end

section
/-! Clearing the display (43_display.md R200): CLS is one `setDisp`. -/

namespace Sys2Proof.Machine

/-- R84, D7: the whole word is tested before the group's SYS. -/
theorem decodesTo_cls : decodesTo 0x00E0 .cls := by
  have hop : opNibble (u16 0x00E0) = 0x0 := by decide
  have hword : decode0 (u16 0x00E0) = .cls := if_pos rfl
  simp only [decodesTo, decode, hop, hword]

theorem exec_cls (s : State) : exec .cls s = .next (s.setDisp clearDisplay) := rfl

/-- Settles O22: the one `setDisp` puts the cleared display in place and, by its frame, leaves every other component as it was. -/
theorem clsClearsEveryPixel : Obligations.ClsClearsEveryPixel := by
  intro s
  refine ⟨decodesTo_cls, _, exec_cls s, fun r c => ?_, unchangedBut_setDisp s clearDisplay⟩
  rw [State.setDisp_disp, Display.pixel_clear]

end Sys2Proof.Machine
end

section
/-! The timer moves (44_keypad_timers.md R223, R224, R225): each is one write of one byte, read before it. -/

namespace Sys2Proof.Machine

/-! ### The words -/

/-- R84: a word of the group 0xF goes to `decodeF`, which looks at its low byte and at X only. -/
theorem decode_u16_F {n sub : Nat} {x : Nibble} (hs : sub < 256) (h : n = 0xF000 + 256 * x.val + sub) :
    decode (u16 n) = decodeF (u16 n) ∧ fieldX (u16 n) = x ∧ (u16 n).toNat % 256 = sub := by
  obtain ⟨hop, hx, hsub⟩ := fields_u16_X (op := 0xF) (x := x) (by decide) hs (h.trans (by omega))
  exact ⟨by simp only [decode, hop], hx, hsub⟩

theorem decodesTo_ldVxDt (x : Nibble) : decodesTo (0xF007 + 256 * x.val) (.ldVxDt x) := by
  obtain ⟨hgroup, hx, hsub⟩ := decode_u16_F (n := 0xF007 + 256 * x.val) (sub := 0x07) (x := x) (by decide) (by omega)
  simp only [decodesTo, hgroup, decodeF, hsub, hx]

theorem decodesTo_ldDtVx (x : Nibble) : decodesTo (0xF015 + 256 * x.val) (.ldDtVx x) := by
  obtain ⟨hgroup, hx, hsub⟩ := decode_u16_F (n := 0xF015 + 256 * x.val) (sub := 0x15) (x := x) (by decide) (by omega)
  simp only [decodesTo, hgroup, decodeF, hsub, hx]

theorem decodesTo_ldStVx (x : Nibble) : decodesTo (0xF018 + 256 * x.val) (.ldStVx x) := by
  obtain ⟨hgroup, hx, hsub⟩ := decode_u16_F (n := 0xF018 + 256 * x.val) (sub := 0x18) (x := x) (by decide) (by omega)
  simp only [decodesTo, hgroup, decodeF, hsub, hx]

/-! ### The meanings -/

theorem exec_ldVxDt (x : Nibble) (s : State) : exec (.ldVxDt x) s = .next (s.setReg x s.dt) := rfl

theorem exec_ldDtVx (x : Nibble) (s : State) : exec (.ldDtVx x) s = .next (s.setDt (s.reg x)) := rfl

theorem exec_ldStVx (x : Nibble) (s : State) : exec (.ldStVx x) s = .next (s.setSt (s.reg x)) := rfl

/-- Settles O27: each move is one `setReg`, `setDt` or `setSt`, whose own law gives the byte and whose frame gives the rest. -/
theorem timerMoves : Obligations.TimerMoves := by
  intro x s
  exact ⟨decodesTo_ldVxDt x, decodesTo_ldDtVx x, decodesTo_ldStVx x,
    ⟨_, exec_ldVxDt x s, fun r => State.reg_setReg s x r s.dt, unchangedBut_setReg s x s.dt⟩,
    ⟨_, exec_ldDtVx x s, State.setDt_dt s (s.reg x), unchangedBut_setDt s (s.reg x)⟩,
    ⟨_, exec_ldStVx x s, State.setSt_st s (s.reg x), unchangedBut_setSt s (s.reg x)⟩⟩

end Sys2Proof.Machine
end

section
/-! The load of the index register (45_index_memory.md R240): one `setI`. -/

namespace Sys2Proof.Machine

theorem decodesTo_ldI (nnn : Addr12) : decodesTo (0xA000 + nnn.toNat) (.ldI nnn) := by
  obtain ⟨hop, hnnn⟩ := fields_u16_NNN (n := 0xA000 + nnn.toNat) (op := 0xA) (by decide) rfl
  simp only [decodesTo, decode, hop, hnnn]

theorem exec_ldI (nnn : Addr12) (s : State) : exec (.ldI nnn) s = .next (s.setI (zext16 nnn)) := rfl

/-- Settles O32: I takes the zero-extended NNN, so its value is NNN's, and the frame of `setI` gives the rest. -/
theorem loadIndexSetsI : Obligations.LoadIndexSetsI := by
  intro nnn s
  refine ⟨decodesTo_ldI nnn, _, exec_ldI nnn s, ?_, unchangedBut_setI s (zext16 nnn)⟩
  rw [State.setI_i, zext16_addr_toNat]

end Sys2Proof.Machine
end

section
/-! The encoder and the decoder (30_encoding.md R81, R84, R86, R87): the two round trips, the opcode table, the illegal words. -/

namespace Sys2Proof

/-! ### Decoding an encoded instruction -/

/-- D7: the word of a well-formed SYS is not one of the two words that the group 0x0 tests first. -/
theorem decode0_encode_sys {nnn : Addr12} (h : (Instr.sys nnn).wellFormed = true) :
    decode0 (encode (.sys nnn)) = .sys nnn := by
  obtain ⟨hcls, hret⟩ : nnn ≠ 0x0E0 ∧ nnn ≠ 0x0EE := by simpa [Instr.wellFormed, sysOperandOk] using h
  have hword : (encode (.sys nnn)).toNat = nnn.toNat := (encNNN_toNat (by decide) nnn).trans (by omega)
  have hne0 : encode (.sys nnn) ≠ 0x00E0 := fun e => hcls (BitVec.eq_of_toNat_eq (by rw [← hword, e]; rfl))
  have hne1 : encode (.sys nnn) ≠ 0x00EE := fun e => hret (BitVec.eq_of_toNat_eq (by rw [← hword, e]; rfl))
  rw [decode0, if_neg hne0, if_neg hne1, encode, fieldNNN_encNNN (by decide)]

/-- Each format's word gives back its high nibble and its fields, so the decoder takes the encoder's row. -/
theorem decode_encode {i : Instr} (h : i.wellFormed = true) : decode (encode i) = .ok i := by
  cases i with
  | cls => rfl
  | ret => rfl
  | sys nnn =>
    have hop : opNibble (encode (.sys nnn)) = 0x0 := opNibble_encNNN (by decide) nnn
    simp only [decode, hop, decode0_encode_sys h]
  | _ => simp [encode, decode, decode8, decodeE, decodeF]

/-- Settles O45: the decoder on a word's bytes is the decoder on the word, and there every format gives back its fields. -/
theorem decodeOfEncode : Obligations.DecodeOfEncode := by
  intro i rest hwf
  have hword := decode_encode hwf
  exact ⟨hword, by rw [decodeBytes_wordBytes, hword]; rfl⟩

/-- Settles O50: each word is the encoder's word of its instruction; 8008 falls through the group 0x8. -/
theorem sampleWordsDecode : Obligations.SampleWordsDecode :=
  ⟨decode_encode (i := .cls) rfl, decode_encode (i := .jp 0x200) rfl, decode_encode (i := .ldVxKk 0xA 0x02) rfl,
    decode_encode (i := .addVxVy 0xA 0xB) rfl, decode_encode (i := .drw 0 1 5) rfl, decode_encode (i := .ldVxK 3) rfl,
    decode_encode (i := .ldMemVx 1) rfl, rfl⟩

/-! ### Encoding a decoded word -/

section
variable {w : Word} {op n sub : Nat}

theorem encNNN_field (hop : opNibble w = op) : encNNN op (fieldNNN w) = w := by
  have hlt := opNibble_lt w
  refine BitVec.eq_of_toNat_eq ?_
  rw [encNNN_toNat (hop ▸ hlt)]
  simp only [opNibble, fieldNNN, BitVec.toNat_ofNat] at hop ⊢
  omega

theorem encXKK_fields (hop : opNibble w = op) : encXKK op (fieldX w) (fieldKK w) = w := by
  have hlt := opNibble_lt w
  refine BitVec.eq_of_toNat_eq ?_
  rw [encXKK_toNat (hop ▸ hlt)]
  simp only [opNibble, fieldX, fieldKK, BitVec.toNat_ofNat] at hop ⊢
  omega

theorem encXYN_fields (hop : opNibble w = op) (hn : w.toNat % 16 = n) : encXYN op (fieldX w) (fieldY w) n = w := by
  have hlt := opNibble_lt w
  refine BitVec.eq_of_toNat_eq ?_
  rw [encXYN_toNat (hop ▸ hlt) (by omega)]
  simp only [opNibble, fieldX, fieldY] at hop ⊢
  omega

theorem encX_field (hop : opNibble w = op) (hs : w.toNat % 256 = sub) : encX op (fieldX w) sub = w := by
  have hlt := opNibble_lt w
  refine BitVec.eq_of_toNat_eq ?_
  rw [encX_toNat (hop ▸ hlt) (by omega)]
  simp only [opNibble, fieldX] at hop ⊢
  omega

/-- Log 8: the encoder's word of a 5XY_ or 9XY_ has the low nibble 0. -/
theorem encXYN_zero_toNat (hop : opNibble w = op) :
    (encXYN op (fieldX w) (fieldY w) 0).toNat = w.toNat / 16 * 16 := by
  have hlt := opNibble_lt w
  rw [encXYN_toNat (hop ▸ hlt) (by decide)]
  simp only [opNibble, fieldX, fieldY] at hop ⊢
  omega

end

/-! ### What the decoder answers, group by group -/

variable {w : Word} {i : Instr}

theorem encode_decode0 (hop : opNibble w = 0x0) : (decode0 w).wellFormed = true ∧ encode (decode0 w) = w := by
  unfold decode0
  split
  · exact ⟨rfl, Eq.symm ‹_›⟩
  split
  · exact ⟨rfl, Eq.symm ‹_›⟩
  have henc : encNNN 0x0 (fieldNNN w) = w := encNNN_field hop
  refine ⟨?_, henc⟩
  simp only [Instr.wellFormed, sysOperandOk, Bool.and_eq_true, bne_iff_ne]
  constructor <;> intro e <;> rw [e] at henc <;> exact absurd henc.symm ‹_›

theorem encode_decode8 (hop : opNibble w = 0x8) (h : decode8 w = .ok i) : i.wellFormed = true ∧ encode i = w := by
  unfold decode8 at h
  split at h <;> cases h <;> exact ⟨rfl, encXYN_fields hop ‹_›⟩

theorem encode_decodeE (hop : opNibble w = 0xE) (h : decodeE w = .ok i) : i.wellFormed = true ∧ encode i = w := by
  unfold decodeE at h
  split at h <;> cases h <;> exact ⟨rfl, encX_field hop ‹_›⟩

theorem encode_decodeF (hop : opNibble w = 0xF) (h : decodeF w = .ok i) : i.wellFormed = true ∧ encode i = w := by
  unfold decodeF at h
  split at h <;> cases h <;> exact ⟨rfl, encX_field hop ‹_›⟩

/-- What O46 says of one word and its instruction. -/
def EncodesBack (w : Word) (i : Instr) : Prop :=
  i.wellFormed = true ∧ (opNibble w ≠ 5 → opNibble w ≠ 9 → encode i = w) ∧
    (opNibble w = 5 ∨ opNibble w = 9 → (encode i).toNat = w.toNat / 16 * 16)

theorem encodesBack_of_eq (h5 : opNibble w ≠ 5) (h9 : opNibble w ≠ 9) (h : i.wellFormed = true ∧ encode i = w) :
    EncodesBack w i :=
  ⟨h.1, fun _ _ => h.2, fun h' => absurd h' (not_or.mpr ⟨h5, h9⟩)⟩

theorem encodesBack_of_XY (h59 : opNibble w = 5 ∨ opNibble w = 9) (hwf : i.wellFormed = true)
    (h : (encode i).toNat = w.toNat / 16 * 16) : EncodesBack w i :=
  ⟨hwf, fun h5 h9 => absurd h59 (not_or.mpr ⟨h5, h9⟩), fun _ => h⟩

theorem encodesBack_of_decode (h : decode w = .ok i) : EncodesBack w i := by
  have hlt := opNibble_lt w
  unfold decode at h
  split at h
  case h_1 hop => cases h; exact encodesBack_of_eq (by omega) (by omega) (encode_decode0 hop)
  case h_6 hop => cases h; exact encodesBack_of_XY (.inl hop) rfl (encXYN_zero_toNat hop)
  case h_9 hop => exact encodesBack_of_eq (by omega) (by omega) (encode_decode8 hop h)
  case h_10 hop => cases h; exact encodesBack_of_XY (.inr hop) rfl (encXYN_zero_toNat hop)
  case h_14 hop => cases h; exact encodesBack_of_eq (by omega) (by omega) ⟨rfl, encXYN_fields hop rfl⟩
  case h_15 hop => exact encodesBack_of_eq (by omega) (by omega) (encode_decodeE hop h)
  case h_16 =>
    simp only [imp_false] at *
    exact encodesBack_of_eq (by omega) (by omega) (encode_decodeF (by omega) h)
  case h_2 | h_3 | h_11 | h_12 => cases h; exact encodesBack_of_eq (by omega) (by omega) ⟨rfl, encNNN_field ‹_›⟩
  all_goals cases h; exact encodesBack_of_eq (by omega) (by omega) ⟨rfl, encXKK_fields ‹_›⟩

/-- Settles O46: every group's fields are the word's, so the encoder puts them back; only 5XY_ and 9XY_ drop a nibble. -/
theorem encodeOfDecode : Obligations.EncodeOfDecode := fun _ _ h => encodesBack_of_decode h

/-! ### The illegal words -/

theorem decode8_illegal_iff : (∀ i, decode8 w ≠ .ok i) ↔ w.toNat % 16 ∈ [0x8, 0x9, 0xA, 0xB, 0xC, 0xD, 0xF] := by
  have hlt : w.toNat % 16 < 16 := Nat.mod_lt _ (by decide)
  unfold decode8
  split
  case h_10 =>
    simp only [imp_false, ne_eq, reduceCtorEq, not_false_eq_true, implies_true, true_iff, List.mem_cons] at *
    omega
  all_goals simp [*]

theorem decodeE_illegal_iff : (∀ i, decodeE w ≠ .ok i) ↔ w.toNat % 256 ∉ [0x9E, 0xA1] := by
  unfold decodeE
  split
  case h_3 => simp only [imp_false] at *; simp [*]
  all_goals simp [*]

theorem decodeF_illegal_iff :
    (∀ i, decodeF w ≠ .ok i) ↔ w.toNat % 256 ∉ [0x07, 0x0A, 0x15, 0x18, 0x1E, 0x29, 0x33, 0x55, 0x65] := by
  unfold decodeF
  split
  case h_10 => simp only [imp_false] at *; simp [*]
  all_goals simp [*]

/-- Settles O49: every group but 0x8, 0xE and 0xF decodes; those three are decided by the low nibble or the low byte. -/
theorem illegalWordsAreThese : Obligations.IllegalWordsAreThese := by
  intro w
  have hlt := opNibble_lt w
  change _ ↔ (opNibble w = 0x8 ∧ _) ∨ (opNibble w = 0xE ∧ _) ∨ (opNibble w = 0xF ∧ _)
  unfold decode
  split
  case h_9 hop => simp [hop, decode8_illegal_iff]
  case h_15 hop => simp [hop, decodeE_illegal_iff]
  case h_16 =>
    simp only [imp_false] at *
    have hop : opNibble w = 0xF := by omega
    simp [hop, decodeF_illegal_iff]
  all_goals simp [*]

/-! ### The opcode table -/

/-- Two rows that hold of one word agree where both masks look. -/
theorem pattern_of_holds {r q : OpRow} (hr : r.holds w = true) (hq : q.holds w = true) :
    r.pattern &&& q.mask = q.pattern &&& r.mask := by
  rw [OpRow.holds, beq_iff_eq] at hr hq
  rw [← hr, ← hq, BitVec.and_assoc, BitVec.and_assoc, BitVec.and_comm q.mask]

theorem rows_agree_only_with_themselves :
    ∀ r ∈ opcodeRows, ∀ q ∈ opcodeRows, r.pattern &&& q.mask = q.pattern &&& r.mask → r = q := by decide

theorem rows_agree_with_sysRow :
    ∀ r ∈ opcodeRows, r.pattern &&& sysRow.mask = sysRow.pattern &&& r.mask → r.num = 1 ∨ r.num = 2 := by decide

/-- Settles O48: rows that share a word agree on their common mask, which the table's rows do not. -/
theorem opcodeRowsAreDisjoint : Obligations.OpcodeRowsAreDisjoint := fun _ r q hr hq h =>
  ⟨fun h' => rows_agree_only_with_themselves r hr q hq (pattern_of_holds h h'),
    fun h' => rows_agree_with_sysRow r hr (pattern_of_holds h h')⟩

/-- R86: a well-formed instruction's word holds of the row the instruction stands in. -/
theorem encode_holds_row : ∀ i : Instr, Laws.EncodeMatchesRow.Statement i
  | .cls => Laws.EncodeMatchesRow.cls
  | .ret => Laws.EncodeMatchesRow.ret
  | .sys nnn => Laws.EncodeMatchesRow.sys nnn
  | .jp nnn => Laws.EncodeMatchesRow.jp nnn
  | .call nnn => Laws.EncodeMatchesRow.call nnn
  | .seVxKk x kk => Laws.EncodeMatchesRow.seVxKk x kk
  | .sneVxKk x kk => Laws.EncodeMatchesRow.sneVxKk x kk
  | .seVxVy x y => Laws.EncodeMatchesRow.seVxVy x y
  | .ldVxKk x kk => Laws.EncodeMatchesRow.ldVxKk x kk
  | .addVxKk x kk => Laws.EncodeMatchesRow.addVxKk x kk
  | .ldVxVy x y => Laws.EncodeMatchesRow.ldVxVy x y
  | .orVxVy x y => Laws.EncodeMatchesRow.orVxVy x y
  | .andVxVy x y => Laws.EncodeMatchesRow.andVxVy x y
  | .xorVxVy x y => Laws.EncodeMatchesRow.xorVxVy x y
  | .addVxVy x y => Laws.EncodeMatchesRow.addVxVy x y
  | .subVxVy x y => Laws.EncodeMatchesRow.subVxVy x y
  | .shrVxVy x y => Laws.EncodeMatchesRow.shrVxVy x y
  | .subnVxVy x y => Laws.EncodeMatchesRow.subnVxVy x y
  | .shlVxVy x y => Laws.EncodeMatchesRow.shlVxVy x y
  | .sneVxVy x y => Laws.EncodeMatchesRow.sneVxVy x y
  | .ldI nnn => Laws.EncodeMatchesRow.ldI nnn
  | .jpV0 nnn => Laws.EncodeMatchesRow.jpV0 nnn
  | .rnd x kk => Laws.EncodeMatchesRow.rnd x kk
  | .drw x y n => Laws.EncodeMatchesRow.drw x y n
  | .skp x => Laws.EncodeMatchesRow.skp x
  | .sknp x => Laws.EncodeMatchesRow.sknp x
  | .ldVxDt x => Laws.EncodeMatchesRow.ldVxDt x
  | .ldVxK x => Laws.EncodeMatchesRow.ldVxK x
  | .ldDtVx x => Laws.EncodeMatchesRow.ldDtVx x
  | .ldStVx x => Laws.EncodeMatchesRow.ldStVx x
  | .addIVx x => Laws.EncodeMatchesRow.addIVx x
  | .ldFVx x => Laws.EncodeMatchesRow.ldFVx x
  | .ldBVx x => Laws.EncodeMatchesRow.ldBVx x
  | .ldMemVx x => Laws.EncodeMatchesRow.ldMemVx x
  | .ldVxMem x => Laws.EncodeMatchesRow.ldVxMem x

/-- The decoder's instruction stands in a row that holds of the word, the dropped nibble of 5XY_ and 9XY_ included. -/
theorem decode_holds_row (h : decode w = .ok i) : ∃ r ∈ sysRow :: opcodeRows, r.num = i.row ∧ r.holds w = true := by
  obtain ⟨hwf, henc, -⟩ := encodesBack_of_decode h
  by_cases h5 : opNibble w = 5
  · have hi : Instr.seVxVy (fieldX w) (fieldY w) = i := by simpa [decode, h5] using h
    exact ⟨⟨8, 0xF000, 0x5000⟩, by decide, hi ▸ rfl, by rw [holds_F000 _ _ _ rfl, h5]; rfl⟩
  by_cases h9 : opNibble w = 9
  · have hi : Instr.sneVxVy (fieldX w) (fieldY w) = i := by simpa [decode, h9] using h
    exact ⟨⟨20, 0xF000, 0x9000⟩, by decide, hi ▸ rfl, by rw [holds_F000 _ _ _ rfl, h9]; rfl⟩
  · have hrow := encode_holds_row i hwf
    rwa [henc h5 h9] at hrow

/-- The rows are disjoint, so any row that holds is the one the table finds. -/
theorem tableRow_of_holds {r : OpRow} (hr : r ∈ opcodeRows) (h : r.holds w = true) : tableRow w = some r.num := by
  cases hfind : opcodeRows.find? fun r => r.holds w with
  | none => exact absurd h (List.find?_eq_none.mp hfind r hr)
  | some q =>
    have hq : q.holds w = true := List.find?_some (p := fun r : OpRow => r.holds w) hfind
    have hrq : r = q := (opcodeRowsAreDisjoint w r q hr (List.mem_of_find?_eq_some hfind) h).1 hq
    simp only [tableRow, hfind, hrq]

theorem tableRow_of_no_row (h : ∀ r ∈ opcodeRows, r.holds w = false) :
    tableRow w = if sysRow.holds w then some 3 else none := by
  have hfind : (opcodeRows.find? fun r => r.holds w) = none := List.find?_eq_none.mpr fun r hr => by simp [h r hr]
  simp only [tableRow, hfind]; rfl

theorem sysRow_holds_iff : sysRow.holds w = true ↔ opNibble w = 0x0 := by
  rw [sysRow, holds_F000 _ _ _ rfl, decide_eq_true_eq]; rfl

/-- The only rows that share words with SYS's hold of one word each. -/
theorem row_of_sys_word {r : OpRow} (hr : r ∈ opcodeRows) (h : r.holds w = true) (hsys : sysRow.holds w = true) :
    w = 0x00E0 ∨ w = 0x00EE := by
  have hrows : ∀ r ∈ opcodeRows, r.num = 1 ∨ r.num = 2 → r.mask = 0xFFFF ∧ (r.pattern = 0x00E0 ∨ r.pattern = 0x00EE) := by
    decide
  obtain ⟨hmask, hpat⟩ := hrows r hr ((opcodeRowsAreDisjoint w r r hr hr h).2 hsys)
  have hw : w = r.pattern := by rw [OpRow.holds, hmask, beq_iff_eq] at h; exact (mask_FFFF w).symm.trans h
  rwa [hw]

/-- R86, R87: the rows that look at the low nibble or the low byte ask for a value their group decodes, and no other row is in such a
group. -/
theorem rows_ask_for_legal_words : ∀ r ∈ sysRow :: opcodeRows,
    ((r.mask = 0xFFFF#16 ∨ r.mask = 0xF000#16) ∧ opNibble r.pattern ∉ [0x8, 0xE, 0xF]) ∨
    (r.mask = 0xF00F#16 ∧ opNibble r.pattern = 0x8 ∧ r.pattern.toNat % 16 ∉ [0x8, 0x9, 0xA, 0xB, 0xC, 0xD, 0xF]) ∨
    (r.mask = 0xF0FF#16 ∧ ((opNibble r.pattern = 0xE ∧ r.pattern.toNat % 256 ∈ [0x9E, 0xA1]) ∨
      (opNibble r.pattern = 0xF ∧ r.pattern.toNat % 256 ∈ [0x07, 0x0A, 0x15, 0x18, 0x1E, 0x29, 0x33, 0x55, 0x65]))) := by
  decide

theorem no_row_of_illegal (h : ∀ i, decode w ≠ .ok i) : ∀ r ∈ sysRow :: opcodeRows, r.holds w = false := by
  intro r hr
  refine Bool.eq_false_iff.mpr fun hold => ?_
  rw [OpRow.holds, beq_iff_eq] at hold
  have hpat := congrArg BitVec.toNat hold
  have hill := (illegalWordsAreThese w).mp h
  have hrow := rows_ask_for_legal_words r hr
  simp only [opNibble, List.mem_cons, List.not_mem_nil, or_false, not_or] at hill hrow
  rcases hrow with ⟨hmask | hmask, hrow⟩ | ⟨hmask, hrow⟩ | ⟨hmask, hrow⟩
  · rw [hmask, mask_FFFF] at hpat; omega
  · rw [hmask, mask_F000] at hpat; omega
  · rw [hmask, mask_F00F] at hpat; omega
  · rw [hmask, mask_F0FF] at hpat; omega

/-- R84, D7: a word that decodes to SYS meets no other row. -/
theorem no_row_of_sys {nnn : Addr12} (h : decode w = .ok (.sys nnn)) (hsys : sysRow.holds w = true) :
    ∀ r ∈ opcodeRows, r.holds w = false := by
  intro r hr
  refine Bool.eq_false_iff.mpr fun hold => ?_
  rcases row_of_sys_word hr hold hsys with rfl | rfl <;> cases h

theorem eq_sys_of_row (h : i.row = 3) : ∃ nnn, i = .sys nnn := by
  cases i with
  | sys nnn => exact ⟨nnn, rfl⟩
  | _ => cases h

/-- Settles O47: an instruction's own row holds of its word and no other row does; an illegal word meets no row at all. -/
theorem decodeAgreesWithTable : Obligations.DecodeAgreesWithTable := by
  intro w
  refine ⟨fun i h => ?_, fun e h => ⟨Machine.decode_error h, ?_⟩⟩
  · obtain ⟨r, hr, hnum, hold⟩ := decode_holds_row h
    rcases List.mem_cons.mp hr with rfl | hr
    · obtain ⟨nnn, rfl⟩ := eq_sys_of_row hnum.symm
      rw [tableRow_of_no_row (no_row_of_sys h hold), if_pos hold]
      rfl
    · rw [tableRow_of_holds hr hold, hnum]
  · have hno := no_row_of_illegal fun i hi => by rw [h] at hi; cases hi
    rw [tableRow_of_no_row fun r hr => hno r (List.mem_cons_of_mem _ hr), hno sysRow List.mem_cons_self]
    rfl

end Sys2Proof
end

section
/-! One step (40_cycle.md R110 to R119, 60_exceptions.md R262): what it runs, where it faults, and that a fault writes nothing. -/

namespace Sys2Proof.Machine

variable {s t : State} {w : Word} {i : Instr}

/-! ### The word a fetch reads, by its value -/

/-- R54, R111: the word is known by its value, the byte at PC times 256 plus the byte at PC + 1. -/
theorem fetch_ok_of_toNat (hf : fetchable s.params s.pc.toNat)
    (hw : w.toNat = (s.byteAt s.pc.toNat).toNat * 256 + (s.byteAt (s.pc.toNat + 1)).toNat) : fetch s = .ok w :=
  fetch_ok_iff.mpr ⟨hf, BitVec.eq_of_toNat_eq (by rw [hw, wordOfBytes_toNat])⟩

theorem step_decoded (hrun : s.run = .running) (hf : fetch s = .ok w) (hd : decode w = .ok i) :
    step s = exec i (advancePc s) := (step_running hrun).trans (runCycle_ok hf hd)

theorem step_fetchError {e : Error} (hrun : s.run = .running) (hf : fetch s = .error e) :
    step s = .next (s.setRun (.faulted e)) := (step_running hrun).trans (runCycle_fetchError hf)

/-- Settles O39: the premises are a fetch and a decode that succeed, and `advancePc` is the record written in the statement. -/
theorem stepRunsDecodedInstruction : Obligations.StepRunsDecodedInstruction := fun _ _ _ hrun hf hw hd =>
  step_decoded hrun (fetch_ok_of_toNat hf hw) hd

/-- Settles O40: both fetch errors are raised before PC is advanced. -/
theorem fetchFaultsHoldPc : Obligations.FetchFaultsHoldPc := fun s hrun =>
  ⟨fun h => ⟨_, step_fetchError hrun (fetch_outOfBounds h), tookError_raise _ s⟩,
    fun h hp => ⟨_, step_fetchError hrun (fetch_below h hp), tookError_raise _ s⟩⟩

theorem unchangedBut_advancePc_setRun (s : State) (r : RunState) : unchangedBut [.run, .pc] s ((advancePc s).setRun r) :=
  unchangedBut_mono (unchangedBut_append (unchangedBut_setPc s _) (unchangedBut_setRun _ r)) (by simp)

/-- Settles O41: the word is fetched, PC advanced, and the decoder has no instruction for it. -/
theorem illegalWordFaults : Obligations.IllegalWordFaults := by
  intro s w hrun hf hw hill
  cases hd : decode w with
  | ok i => exact absurd hd (hill i)
  | error e =>
    exact ⟨_, (step_running hrun).trans (runCycle_illegal (fetch_ok_of_toNat hf hw) hd), rfl, rfl,
      unchangedBut_advancePc_setRun s _⟩

/-! ### What a step of a running machine can do -/

/-- R110 to R116, R262: a fetch fault with PC held, a later fault with PC advanced, or an instruction that completes. -/
theorem step_running_cases (hrun : s.run = .running) (h : step s = .next t) :
    (∃ e, ¬fetchable s.params s.pc.toNat ∧ errorCode e ≠ 1 ∧ t = s.setRun (.faulted e)) ∨
    (fetchable s.params s.pc.toNat ∧
      ((∃ e, errorCode e ≠ 1 ∧ t = (advancePc s).setRun (.faulted e)) ∨ ∃ i, Completes i (advancePc s) t)) := by
  rw [step_running hrun] at h
  rcases runCycle_cases s with ⟨e, hf, hc⟩ | ⟨w, hf, -, hc⟩ | ⟨w, i, hf, -, hc⟩ <;> rw [hc] at h
  · obtain ⟨hno, he⟩ := fetch_error_cases hf
    refine .inl ⟨e, hno, ?_, (Host.Outcome.next.inj h).symm⟩
    rcases he with rfl | rfl <;> simp [errorCode]
  · exact .inr ⟨(fetch_ok_iff.mp hf).1, .inl ⟨_, by simp [errorCode], (Host.Outcome.next.inj h).symm⟩⟩
  · exact .inr ⟨(fetch_ok_iff.mp hf).1, (exec_cases h).imp_right fun hc => ⟨i, hc⟩⟩

/-- Settles O43: the two faulting cases of a step change RUN, and PC by the pre-increment only; the third raises no error. -/
theorem faultingStepWritesNothing : Obligations.FaultingStepWritesNothing := by
  intro s t e hrun hstep hfault
  rcases step_running_cases hrun hstep with ⟨e', hno, hcode, rfl⟩ | ⟨hf, ⟨e', hcode, rfl⟩ | ⟨i, hi⟩⟩
  · cases hfault
    exact ⟨unchangedBut_mono (unchangedBut_setRun s _) (by simp), hcode, fun h => absurd h hno, fun _ => rfl⟩
  · cases hfault
    exact ⟨unchangedBut_advancePc_setRun s _, hcode, fun _ => rfl, fun h => absurd hf h⟩
  · rcases completes_run hi with hr | ⟨x, hr⟩ <;> rw [hfault] at hr
    · exact absurd (hr.trans hrun) nofun
    · exact absurd hr nofun

/-! ### Memory: the two storing instructions -/

theorem skipIf_eq (c : Bool) (s : State) : skipIf c s = { s with pc := (skipIf c s).pc } := by
  unfold skipIf; split <;> rfl

/-- R53, R58: memory is as before, or a run of bytes was stored inside memory and outside a closed reserved region. -/
theorem completes_mem (h : Completes i s t) : t.mem = s.mem ∨
    ∃ start bs, t.mem = writeBytes s.mem start bs ∧ start + bs.length ≤ 0x1000 ∧
      (0x200 ≤ start ∨ s.params.reservedWrite = .allow) := by
  cases i <;> simp only [Completes] at h
  case ldBVx x =>
    obtain ⟨⟨hlen, hlow⟩, rfl⟩ := h
    exact .inr ⟨_, _, rfl, hlen, hlow⟩
  case ldMemVx x =>
    obtain ⟨⟨hlen, hlow⟩, rfl⟩ := h
    refine .inr ⟨s.i.toNat, dumpBytes x s, ?_, by rwa [dumpBytes_length], hlow⟩
    rw [finishIndex_eq]; rfl
  all_goals left
  case ldVxMem x => obtain ⟨-, rfl⟩ := h; rw [finishIndex_eq, loadRegs_eq]
  case ret | ldFVx => obtain ⟨-, -, rfl⟩ := h; rfl
  case call | sys | drw => obtain ⟨-, rfl⟩ := h; rfl
  case skp | sknp => obtain ⟨-, -, rfl⟩ := h; rw [skipIf_eq]
  all_goals subst h
  case orVxVy | andVxVy | xorVxVy => rw [writeLogic_eq]
  case seVxKk | sneVxKk | seVxVy | sneVxVy => rw [skipIf_eq]
  all_goals rfl

/-- What a step can do to memory, in every RUN state. -/
theorem step_mem (h : step s = .next t) : t.mem = s.mem ∨
    ∃ start bs, t.mem = writeBytes s.mem start bs ∧ start + bs.length ≤ 0x1000 ∧
      (0x200 ≤ start ∨ s.params.reservedWrite = .allow) := by
  cases hrun : s.run with
  | running =>
    rcases step_running_cases hrun h with ⟨e, -, -, rfl⟩ | ⟨-, ⟨e, -, rfl⟩ | ⟨i, hi⟩⟩
    · exact .inl rfl
    · exact .inl rfl
    · exact completes_mem (s := advancePc s) hi
  | waitingForKey x =>
    rw [step_waiting hrun] at h
    obtain rfl := Host.Outcome.next.inj h
    rcases poll_cases x s with ⟨-, hp⟩ | ⟨k, -, hp⟩ <;> rw [hp] <;> exact .inl rfl
  | faulted e =>
    rw [step_faulted hrun] at h
    obtain rfl := Host.Outcome.next.inj h
    exact .inl rfl

/-- Settles O55: a step stores one run of bytes at most, and under `P_RESERVED_WRITE = FAULT` the run starts at 0x200 or above. -/
theorem reservedRegionIsNeverWritten : Obligations.ReservedRegionIsNeverWritten := by
  intro s t hp hstep a ha
  rcases step_mem hstep with hm | ⟨start, bs, hm, -, hlow | hallow⟩
  · exact congrArg (Memory.read · a) hm
  · exact (congrArg (Memory.read · a) hm).trans (read_writeBytes_outside (.inl (by omega)))
  · rw [hp] at hallow; cases hallow

end Sys2Proof.Machine
end

section
/-! What every instruction may change (10_state.md R23, R25, R29 to R40): components, registers, PC. -/

namespace Sys2Proof.Machine

variable {s t : State} {i : Instr} {p : Params} {c : Component} {r : Nibble}

/-! ### Components -/

/-- A component that an instruction changes is one `touches` lists, or RUN by an error. -/
theorem touches_of_changed (h : exec i s = .next t) (hc : ¬c.same s t) :
    c ∈ touches s.params i ∨ (c = .run ∧ ∃ e, t.run = .faulted e) := by
  rcases exec_cases h with ⟨e, -, rfl⟩ | hcomp
  · refine .inr ⟨?_, e, rfl⟩
    by_contra hne
    exact hc (unchangedBut_setRun s _ c (by simpa using hne))
  · exact .inl (by_contra fun hn => hc (completes_unchangedBut hcomp c hn))

/-- The instructions that may write a component when they complete; registers and PC have tables of their own (R23, R25). -/
def Writes (p : Params) : Component → Instr → Prop
  | .keys, _ | .params, _ => False
  | .regs, _ | .pc, _ => True
  | .display, i => i = .cls ∨ ∃ x y n, i = .drw x y n
  | .memory, i => ∃ x, i = .ldBVx x ∨ i = .ldMemVx x
  | .stack, i => i = .ret ∨ ∃ nnn, i = .call nnn
  | .delay, i => ∃ x, i = .ldDtVx x
  | .sound, i => ∃ x, i = .ldStVx x
  | .index, i => (∃ nnn, i = .ldI nnn) ∨ (∃ x, i = .addIVx x ∨ i = .ldFVx x) ∨
      (p.memI = .increment ∧ ∃ x, i = .ldMemVx x ∨ i = .ldVxMem x)
  | .draws, i => ∃ x kk, i = .rnd x kk
  | .run, i => ∃ x, i = .ldVxK x

theorem writes_of_touches (p : Params) (i : Instr) : ∀ c ∈ touches p i, Writes p c i := by
  cases i with
  | ldMemVx x => cases hm : p.memI <;> simp [touches, Writes, hm]
  | ldVxMem x => cases hm : p.memI <;> simp [touches, Writes, hm]
  | _ => simp [touches, Writes]

/-- Only an error changes a component that its instruction does not write, and that component is RUN. -/
theorem writes_of_changed (hrun : c ≠ .run) (h : exec i s = .next t) (hc : ¬c.same s t) : Writes s.params c i :=
  writes_of_touches _ i c ((touches_of_changed h hc).resolve_right fun h => hrun h.1)

/-- Settles O56: the frame of every instruction is `touches`, read off component by component. -/
theorem onlyTheseInstructionsWrite : Obligations.OnlyTheseInstructionsWrite := by
  intro i s t h
  refine ⟨by_contra (writes_of_changed (by decide) h), by_contra (writes_of_changed (by decide) h),
    writes_of_changed (by decide) h, writes_of_changed (by decide) h, writes_of_changed (by decide) h,
    writes_of_changed (by decide) h, writes_of_changed (by decide) h, writes_of_changed (by decide) h,
    writes_of_changed (by decide) h, fun hc => ?_⟩
  rcases touches_of_changed h hc with ht | ⟨-, he⟩
  · exact .inr (writes_of_touches _ i _ ht)
  · exact .inl he

/-! ### Registers -/

theorem finishIndex_reg (x : Nibble) (s : State) (r : Nibble) : (finishIndex x s).reg r = s.reg r := by
  rw [finishIndex_eq]; rfl

/-- R23: a register outside the instruction's "w" entries is as before. -/
theorem completes_reg (h : Completes i s t) (hr : r ∉ writtenRegs s.params i) : t.reg r = s.reg r := by
  by_cases ht : .regs ∈ touches s.params i
  · cases i <;> simp only [Completes] at h
    case drw =>
      obtain ⟨-, rfl⟩ := h
      exact (State.reg_setReg _ vf _ _).trans (if_neg (by simpa [writtenRegs, vf] using hr))
    case ldVxMem x =>
      obtain ⟨-, rfl⟩ := h
      exact (finishIndex_reg _ _ _).trans (loadRegs_reg_of_not_mem hr)
    case ldVxKk | addVxKk | ldVxVy | ldVxDt | rnd =>
      subst h
      exact (State.reg_setReg _ _ _ _).trans (if_neg (by simpa [writtenRegs] using hr))
    case orVxVy | andVxVy | xorVxVy =>
      subst h
      rw [writeLogic_reg]
      cases hq : s.params.logicVf <;> simp_all [writtenRegs]
    case addVxVy | subVxVy | subnVxVy | shrVxVy | shlVxVy =>
      subst h
      simp only [writtenRegs, List.mem_cons, List.not_mem_nil, or_false, not_or] at hr
      rw [writeWithFlag_reg, if_neg hr.2, if_neg hr.1]
    case ldMemVx => simp only [touches] at ht; split at ht <;> simp at ht
    all_goals simp [touches] at ht
  · exact completes_unchangedBut h .regs ht r

/-- Settles O57: an error changes no register, and an instruction that completes only those of the table. -/
theorem onlyTheseRegistersChange : Obligations.OnlyTheseRegistersChange := by
  intro i s t r h hne
  rcases exec_cases h with ⟨e, -, rfl⟩ | hcomp
  · exact absurd rfl hne
  · exact by_contra fun hr => hne (completes_reg hcomp hr)

/-! ### The program counter -/

/-- R150, R151 to R154, R220, R221: the instructions that skip. -/
def IsSkip (i : Instr) : Prop :=
  (∃ x kk, i = .seVxKk x kk ∨ i = .sneVxKk x kk) ∨ (∃ x y, i = .seVxVy x y ∨ i = .sneVxVy x y) ∨ ∃ x, i = .skp x ∨ i = .sknp x

theorem skipIf_pc_cases {c : Bool} (hi : IsSkip i) (h : t = skipIf c s) : t.pc = s.pc ∨ (IsSkip i ∧ t.pc = s.pc + 2) := by
  subst h
  cases c with
  | false => exact .inl rfl
  | true => exact .inr ⟨hi, rfl⟩

/-- R25: where an instruction that completes leaves PC, if it writes it and is no skip. -/
def Jumps (i : Instr) (s t : State) : Prop :=
  (∃ nnn, (i = .jp nnn ∨ i = .call nnn) ∧ t.pc = zext16 nnn) ∨
  (∃ nnn, i = .jpV0 nnn ∧ t.pc = zext16 nnn + zext16 (s.reg 0)) ∨
  (i = .ret ∧ s.sp ≠ 0 ∧ ∃ hj : (s.sp - 1).toNat < 16, t.pc = s.slot ⟨(s.sp - 1).toNat, hj⟩) ∨
  ∃ x, i = .ldVxK x ∧ t.pc = instrAddr s

theorem completes_pc (h : Completes i s t) : (t.pc = s.pc ∨ (IsSkip i ∧ t.pc = s.pc + 2)) ∨ Jumps i s t := by
  by_cases ht : .pc ∈ touches s.params i
  · cases i <;> simp only [Completes] at h
    case jp nnn => subst h; exact .inr (.inl ⟨nnn, .inl rfl, rfl⟩)
    case call nnn => obtain ⟨-, rfl⟩ := h; exact .inr (.inl ⟨nnn, .inr rfl, rfl⟩)
    case jpV0 nnn => subst h; exact .inr (.inr (.inl ⟨nnn, rfl, rfl⟩))
    case ret => obtain ⟨hsp, hj, rfl⟩ := h; exact .inr (.inr (.inr (.inl ⟨rfl, hsp, hj, rfl⟩)))
    case ldVxK x => subst h; exact .inr (.inr (.inr (.inr ⟨x, rfl, rfl⟩)))
    case seVxKk x kk => exact .inl (skipIf_pc_cases (.inl ⟨x, kk, .inl rfl⟩) h)
    case sneVxKk x kk => exact .inl (skipIf_pc_cases (.inl ⟨x, kk, .inr rfl⟩) h)
    case seVxVy x y => exact .inl (skipIf_pc_cases (.inr (.inl ⟨x, y, .inl rfl⟩)) h)
    case sneVxVy x y => exact .inl (skipIf_pc_cases (.inr (.inl ⟨x, y, .inr rfl⟩)) h)
    case skp x => obtain ⟨k, -, h⟩ := h; exact .inl (skipIf_pc_cases (.inr (.inr ⟨x, .inl rfl⟩)) h)
    case sknp x => obtain ⟨k, -, h⟩ := h; exact .inl (skipIf_pc_cases (.inr (.inr ⟨x, .inr rfl⟩)) h)
    case ldMemVx | ldVxMem => simp only [touches] at ht; split at ht <;> simp at ht
    all_goals simp [touches] at ht
  · exact .inl (.inl (completes_unchangedBut h .pc ht))

theorem instrAddr_add_two (s : State) : instrAddr s + 2 = s.pc := BitVec.sub_add_cancel s.pc 2

/-- Settles O58: an error leaves PC, and `completes_pc` says where an instruction that completes leaves it. -/
theorem pcFollowsTheLaw : Obligations.PcFollowsTheLaw := by
  intro i s t h hne
  rcases exec_cases h with ⟨e, -, rfl⟩ | hcomp
  · exact absurd rfl hne
  rcases completes_pc hcomp with (hpc | ⟨hskip, hpc⟩) | ⟨nnn, hi, -⟩ | ⟨nnn, hi, -⟩ | ⟨hi, -⟩ | ⟨x, hi, hpc⟩
  · exact absurd hpc hne
  · exact .inr (.inr ⟨hskip, hpc⟩)
  · exact .inl (.inr ⟨nnn, hi.imp_right .inl⟩)
  · exact .inl (.inr ⟨nnn, .inr (.inr hi)⟩)
  · exact .inl (.inl hi)
  · exact .inr (.inl ⟨⟨x, hi⟩, by rw [hpc, instrAddr_add_two]⟩)

end Sys2Proof.Machine
end

section
/-! The invariant of every reachable state (10_state.md R26, R30, R38, 40_cycle.md R117, 41_flow.md R144): every step keeps it, and
where it holds a step answers. -/

namespace Sys2Proof.Machine

variable {s t : State} {i : Instr} {e : Error}

/-! ### Stack and RUN after an instruction -/

/-- R142, R144: the stack is as before, has one more return address, or one less. -/
theorem completes_stack (h : Completes i s t) :
    (t.sp = s.sp ∧ ∀ j, t.slot j = s.slot j) ∨
    (s.sp.toNat < 16 ∧ t.sp = s.sp + 1 ∧ ∀ j : Nibble, t.slot j = if j.val = s.sp.toNat then s.pc else s.slot j) ∨
    (s.sp ≠ 0 ∧ t.sp = s.sp - 1 ∧ ∀ j, t.slot j = s.slot j) := by
  by_cases ht : .stack ∈ touches s.params i
  · rcases writes_of_touches _ _ _ ht with rfl | ⟨nnn, rfl⟩
    · obtain ⟨hsp, -, rfl⟩ := h
      exact .inr (.inr ⟨hsp, rfl, fun _ => rfl⟩)
    · obtain ⟨hsp, rfl⟩ := h
      refine .inr (.inl ⟨hsp, rfl, fun j => ?_⟩)
      simp only [State.setPc_slot, State.setSp_slot, State.slot_setSlot, Fin.ext_iff]
  · exact .inl (completes_unchangedBut h .stack ht)

/-- R226: only LD Vx, K leaves a machine that ran waiting, with PC held at its own address. -/
theorem completes_waiting {x : Nibble} (h : Completes i s t) (hrun : s.run = .running) (hwait : t.run = .waitingForKey x) :
    t.pc = instrAddr s := by
  by_cases ht : .run ∈ touches s.params i
  · obtain ⟨y, rfl⟩ := writes_of_touches _ _ _ ht
    rw [show t = _ from h]; rfl
  · have hsame : t.run = s.run := completes_unchangedBut h .run ht
    rw [hsame, hrun] at hwait; cases hwait

/-! ### The invariant, update by update -/

theorem inv_setRun_faulted (h : Inv s) (he : errorCode e ≠ 1) : Inv (s.setRun (.faulted e)) where
  mem_wf := h.mem_wf
  sp_le := h.sp_le
  slot_le := h.slot_le
  pc_le := h.pc_le
  wait_pc := nofun
  fault_of_step := fun _ he' => by cases he'; exact he
  params_wf := h.params_wf

/-- R112: where a fetch succeeds, the pre-increment does not wrap. -/
theorem pc_add_two_of_fetchable (hf : fetchable s.params s.pc.toNat) : (s.pc + 2).toNat = s.pc.toNat + 2 :=
  pc_add_two (by have := hf.1; omega)

theorem inv_advancePc (h : Inv s) (hrun : s.run = .running) (hf : fetchable s.params s.pc.toNat) : Inv (advancePc s) where
  mem_wf := h.mem_wf
  sp_le := h.sp_le
  slot_le := h.slot_le
  pc_le := by
    have hpc : (advancePc s).pc.toNat = s.pc.toNat + 2 := pc_add_two_of_fetchable hf
    have := hf.1; omega
  wait_pc := fun x hw => by cases hrun.symm.trans hw
  fault_of_step := h.fault_of_step
  params_wf := h.params_wf

theorem inv_poll {x : Nibble} (h : Inv s) (hwait : s.run = .waitingForKey x) : Inv (poll x s) := by
  rcases poll_cases x s with ⟨-, hp⟩ | ⟨k, -, hp⟩ <;> rw [hp]
  · exact h
  · have hf := h.wait_pc x hwait
    exact {
      mem_wf := h.mem_wf
      sp_le := h.sp_le
      slot_le := h.slot_le
      pc_le := by
        have hpc : (s.pc + 2).toNat = s.pc.toNat + 2 := pc_add_two_of_fetchable hf
        rw [State.setRun_pc, State.setPc_pc, hpc]
        have := hf.1; omega
      wait_pc := nofun
      fault_of_step := nofun
      params_wf := h.params_wf }

/-! ### The invariant over an instruction, which was fetched at `PC - 2` -/

/-- R26: PC was advanced without a wrap, and stays within reach of the memory's end. -/
theorem pc_le_of_fetched (hf : fetchable s.params (instrAddr s).toNat) : s.pc.toNat ≤ 0x1000 := by
  have hpc : s.pc.toNat = (instrAddr s).toNat + 2 := by
    rw [← instrAddr_add_two s]; exact pc_add_two (by have := hf.1; omega)
  have := hf.1; omega

theorem sp_sub_one_lt {n : Byte} (h : n ≠ 0) : (n - 1).toNat < n.toNat := by
  have hpos : n.toNat ≠ 0 := fun e => h (BitVec.eq_of_toNat_eq e)
  rw [sp_sub_one h]; omega

/-- R26: "the largest value any rule can produce" is the 0xFFF + 0xFF of JP V0; a return address is at most 0x1000 (R144). -/
theorem completes_pc_le (h : Inv s) (hf : fetchable s.params (instrAddr s).toNat) (hc : Completes i s t) :
    t.pc.toNat ≤ 0x10FE := by
  have hpc := pc_le_of_fetched hf
  rcases completes_pc hc with (ht | ⟨-, ht⟩) | ⟨nnn, -, ht⟩ | ⟨nnn, -, ht⟩ | ⟨-, hsp, hj, ht⟩ | ⟨x, -, ht⟩ <;> rw [ht]
  · omega
  · rw [pc_add_two (by omega)]; omega
  · rw [zext16_addr_toNat]; have := nnn.isLt; omega
  · rw [BitVec.toNat_add, zext16_addr_toNat, zext16_byte_toNat]
    have := nnn.isLt; have := (s.reg 0).isLt; omega
  · exact (h.slot_le ⟨_, hj⟩ (sp_sub_one_lt hsp)).trans (by decide)
  · have := hf.1; omega

theorem completes_sp_le (h : Inv s) (hc : Completes i s t) : t.sp.toNat ≤ 16 := by
  have hle := h.sp_le
  rcases completes_stack hc with ⟨ht, -⟩ | ⟨hlt, ht, -⟩ | ⟨hne, ht, -⟩ <;> rw [ht]
  · exact hle
  · rw [sp_add_one (by omega)]; omega
  · rw [sp_sub_one hne]; omega

theorem completes_slot_le (h : Inv s) (hf : fetchable s.params (instrAddr s).toNat) (hc : Completes i s t) (j : Nibble)
    (hj : j.val < t.sp.toNat) : (t.slot j).toNat ≤ 0x1000 := by
  rcases completes_stack hc with ⟨hsp, hslot⟩ | ⟨hlt, hsp, hslot⟩ | ⟨hne, hsp, hslot⟩ <;> rw [hsp] at hj <;> rw [hslot]
  · exact h.slot_le j hj
  · rw [sp_add_one (by omega)] at hj
    split
    · exact pc_le_of_fetched hf
    · exact h.slot_le j (by omega)
  · rw [sp_sub_one hne] at hj
    exact h.slot_le j (by omega)

theorem completes_mem_wf (h : Inv s) (hc : Completes i s t) : t.mem.wf := by
  rcases completes_mem hc with ht | ⟨start, bs, ht, hlen, -⟩ <;> rw [ht]
  · exact h.mem_wf
  · exact writeBytes_wf h.mem_wf hlen

theorem completes_inv (h : Inv s) (hrun : s.run = .running) (hf : fetchable s.params (instrAddr s).toNat)
    (hc : Completes i s t) : Inv t := by
  have hparams : t.params = s.params := completes_unchangedBut hc .params (writes_of_touches _ _ _)
  exact {
    mem_wf := completes_mem_wf h hc
    sp_le := completes_sp_le h hc
    slot_le := completes_slot_le h hf hc
    pc_le := completes_pc_le h hf hc
    wait_pc := fun x hw => by rw [completes_waiting hc hrun hw, hparams]; exact hf
    fault_of_step := fun e he => by
      rcases completes_run hc with hr | ⟨x, hr⟩
      · rw [hr, hrun] at he; cases he
      · rw [hr] at he; cases he
    params_wf := hparams ▸ h.params_wf }

theorem step_inv (h : Inv s) (hstep : step s = .next t) : Inv t := by
  cases hrun : s.run with
  | running =>
    rcases step_running_cases hrun hstep with ⟨e, -, he, rfl⟩ | ⟨hf, ⟨e, he, rfl⟩ | ⟨i, hi⟩⟩
    · exact inv_setRun_faulted h he
    · exact inv_setRun_faulted (inv_advancePc h hrun hf) he
    · have haddr : instrAddr (advancePc s) = s.pc := instrAddr_of_pc rfl
      exact completes_inv (inv_advancePc h hrun hf) hrun (haddr.symm ▸ hf) hi
  | waitingForKey x =>
    rw [step_waiting hrun] at hstep
    exact Host.Outcome.next.inj hstep ▸ inv_poll h hrun
  | faulted e =>
    rw [step_faulted hrun] at hstep
    exact Host.Outcome.next.inj hstep ▸ h

/-- Settles O52: a fault changes RUN and PC only, a poll adds 2 to a fetchable PC, and an instruction keeps the invariant's fields one
by one. -/
theorem stepKeepsInv : Obligations.StepKeepsInv := fun _ _ => step_inv

/-! ### A step answers -/

theorem orRaise_answers {α : Type} (r : Except Error α) (s : State) {k : α → Result} (hk : ∀ a, ∃ t, k a = .next t) :
    ∃ t, orRaise r s k = .next t := by
  cases r with
  | ok a => exact hk a
  | error e => exact ⟨_, rfl⟩

/-- Log 5: only a stack slot that does not exist stops an instruction. -/
theorem exec_answers (i : Instr) (hsp : s.sp.toNat ≤ 16) : ∃ t, exec i s = .next t := by
  cases i with
  | sys nnn => simp only [exec, execSys]; split <;> exact ⟨_, rfl⟩
  | call nnn =>
    simp only [exec, execCall]
    split
    · exact ⟨_, rfl⟩
    · rename_i hne
      have hlt : s.sp.toNat < 16 := lt_of_le_of_ne hsp fun e => hne (BitVec.eq_of_toNat_eq e)
      exact ⟨_, pushAddr_ok hlt _ _⟩
  | ret =>
    simp only [exec, execRet]
    split
    · exact ⟨_, rfl⟩
    · exact ⟨_, popAddr_ok ((sp_sub_one_lt ‹_›).trans_le hsp) _⟩
  | drw | skp | sknp | ldFVx | ldBVx | ldMemVx | ldVxMem => exact orRaise_answers _ _ fun _ => ⟨_, rfl⟩
  | _ => exact ⟨_, rfl⟩

theorem step_answers (h : Inv s) : ∃ t, step s = .next t := by
  cases hrun : s.run with
  | running =>
    rw [step_running hrun]
    rcases runCycle_cases s with ⟨e, -, hc⟩ | ⟨w, -, -, hc⟩ | ⟨w, i, -, -, hc⟩
    · exact ⟨_, hc⟩
    · exact ⟨_, hc⟩
    · rw [hc]; exact exec_answers i h.sp_le
  | waitingForKey x => exact ⟨_, step_waiting hrun⟩
  | faulted e => exact ⟨_, step_faulted hrun⟩

/-- Settles O54: under the invariant SP is at most 16, and then every slot that CALL and RET need exists. -/
theorem stepAlwaysAnswers : Obligations.StepAlwaysAnswers := fun _ => step_answers

end Sys2Proof.Machine
end

section
/-! Calls, returns, and the other flow instructions (41_flow.md R141 to R146, R153, R154). -/

namespace Sys2Proof.Machine

variable {s t : State} {a : Word} {i : Instr}

/-! ### The words -/

/-- R84, R86: a word written as a number decodes to the instruction whose encoding it is. -/
theorem decodesTo_of_encode {n : Nat} (hwf : i.wellFormed = true) (h : encode i = u16 n) : decodesTo n i := by
  rw [decodesTo, ← h]; exact decode_encode hwf

theorem decodesTo_jpV0 (nnn : Addr12) : decodesTo (0xB000 + nnn.toNat) (.jpV0 nnn) := decodesTo_of_encode rfl rfl

theorem decodesTo_call (nnn : Addr12) : decodesTo (0x2000 + nnn.toNat) (.call nnn) := decodesTo_of_encode rfl rfl

theorem decodesTo_ret : decodesTo 0x00EE .ret := decodesTo_of_encode rfl rfl

theorem decodesTo_sys {nnn : Addr12} (hcls : nnn.toNat ≠ 0x0E0) (hret : nnn.toNat ≠ 0x0EE) : decodesTo nnn.toNat (.sys nnn) := by
  refine decodesTo_of_encode ?_ (congrArg u16 (by omega))
  have h0 : nnn ≠ 0x0E0 := fun e => hcls (by rw [e]; rfl)
  have h1 : nnn ≠ 0x0EE := fun e => hret (by rw [e]; rfl)
  simp only [Instr.wellFormed, sysOperandOk, Bool.and_eq_true, bne_iff_ne]
  exact ⟨h0, h1⟩

/-- D8: the low nibble is not examined. -/
theorem decodesTo_seVxVy (x y n : Nibble) : decodesTo (0x5000 + 256 * x.val + 16 * y.val + n.val) (.seVxVy x y) := by
  obtain ⟨hop, hx, hy, -, -⟩ := fields_u16_XYN (v := 0x5000 + 256 * x.val + 16 * y.val + n.val) (op := 0x5) (x := x) (y := y)
    (n := n) (by decide) (by omega)
  simp only [decodesTo, decode, hop, hx, hy]

theorem decodesTo_sneVxVy (x y n : Nibble) : decodesTo (0x9000 + 256 * x.val + 16 * y.val + n.val) (.sneVxVy x y) := by
  obtain ⟨hop, hx, hy, -, -⟩ := fields_u16_XYN (v := 0x9000 + 256 * x.val + 16 * y.val + n.val) (op := 0x9) (x := x) (y := y)
    (n := n) (by decide) (by omega)
  simp only [decodesTo, decode, hop, hx, hy]

/-! ### Jumps with an offset, skips, SYS -/

theorem exec_jpV0 (nnn : Addr12) (s : State) :
    exec (.jpV0 nnn) s = .next (s.setPc (zext16 nnn + zext16 (s.reg 0))) := rfl

theorem zext16_add_toNat (nnn : Addr12) (b : Byte) : (zext16 nnn + zext16 b).toNat = nnn.toNat + b.toNat := by
  have := nnn.isLt; have := b.isLt
  rw [BitVec.toNat_add, zext16_addr_toNat, zext16_byte_toNat]; omega

/-- Settles O6: the sum of a 12-bit and an 8-bit value fits in 16 bits. -/
theorem jumpWithOffsetAddsV0 : Obligations.JumpWithOffsetAddsV0 := fun nnn s =>
  ⟨decodesTo_jpV0 nnn, _, exec_jpV0 nnn s, zext16_add_toNat nnn (s.reg 0), unchangedBut_setPc s _⟩

theorem exec_seVxVy (x y : Nibble) (s : State) : exec (.seVxVy x y) s = .next (skipIf (s.reg x == s.reg y) s) := rfl

theorem exec_sneVxVy (x y : Nibble) (s : State) : exec (.sneVxVy x y) s = .next (skipIf (s.reg x != s.reg y) s) := rfl

/-- Settles O12: both instructions are one `skipIf`, on equality and on inequality, whatever the word's low nibble. -/
theorem skipOnRegister : Obligations.SkipOnRegister := by
  intro x y n s a hpc
  refine ⟨decodesTo_seVxVy x y n, decodesTo_sneVxVy x y n,
    ⟨_, exec_seVxVy x y s, ?_, unchangedBut_skipIf _ s⟩, ⟨_, exec_sneVxVy x y s, ?_, unchangedBut_skipIf _ s⟩⟩
  · simp only [skipIf_pc hpc, beq_iff_eq, BitVec.toNat_inj]
  · simp only [skipIf_pc hpc, bne_iff_ne, ne_eq, BitVec.toNat_inj, ite_not]

theorem exec_sys_nop (nnn : Addr12) (h : s.params.sys = .nop) : exec (.sys nnn) s = .next s := by
  simp only [exec, execSys, h]

theorem exec_sys_fault (nnn : Addr12) (h : s.params.sys = .fault) :
    exec (.sys nnn) s = .next (s.setRun (.faulted (.sysUnsupported (zext16 nnn) (instrAddr s)))) := by
  simp only [exec, execSys, h, raiseError_eq]

theorem zext16_eq_u16 (nnn : Addr12) : zext16 nnn = u16 nnn.toNat :=
  BitVec.eq_of_toNat_eq (by rw [zext16_addr_toNat, u16_toNat (by have := nnn.isLt; omega)])

/-- Settles O13: the two policies are the two branches of SYS, and the word of a SYS is its NNN. -/
theorem sysIsNopOrUnsupported : Obligations.SysIsNopOrUnsupported := by
  intro nnn s a hpc
  refine ⟨decodesTo_sys, fun h => ⟨s, exec_sys_nop nnn h, unchangedBut_refl _ s⟩, fun h => ⟨_, exec_sys_fault nnn h, ?_⟩⟩
  rw [instrAddr_of_pc hpc, zext16_eq_u16]
  exact tookError_raise _ s

/-! ### CALL -/

theorem exec_call_push (nnn : Addr12) (h : s.sp.toNat < 16) :
    exec (.call nnn) s = .next (((s.setSlot ⟨s.sp.toNat, h⟩ s.pc).setSp (s.sp + 1)).setPc (zext16 nnn)) := by
  have hne : s.sp ≠ 16 := fun e => absurd h (by rw [e]; decide)
  simp only [exec, execCall, if_neg hne, pushAddr_ok h]

theorem exec_call_full (nnn : Addr12) (h : s.sp.toNat = 16) :
    exec (.call nnn) s = .next (s.setRun (.faulted (.stackOverflow (instrAddr s)))) := if_pos (BitVec.eq_of_toNat_eq h)

theorem exec_call_noSlot (nnn : Addr12) (h : 17 ≤ s.sp.toNat) : exec (.call nnn) s = .fault (.noStackSlot s.sp) := by
  have hne : s.sp ≠ 16 := fun e => absurd h (by rw [e]; decide)
  simp only [exec, execCall, if_neg hne, pushAddr, stackSlot_none (show 16 ≤ s.sp.toNat by omega)]

/-- Settles O7: the push writes the slot at SP, and the check for 16 comes before it. -/
theorem callPushesReturnAddress : Obligations.CallPushesReturnAddress := by
  intro nnn s a hpc
  refine ⟨decodesTo_call nnn, fun h => ⟨_, exec_call_push nnn h, zext16_addr_toNat nnn, sp_add_one (by omega), fun j => ?_, ?_⟩,
    fun h => ⟨_, exec_call_full nnn h, ?_⟩⟩
  · simp only [State.setPc_slot, State.setSp_slot, State.slot_setSlot, Fin.ext_iff, hpc]
  · exact completes_unchangedBut (i := .call nnn) ⟨h, rfl⟩
  · rw [instrAddr_of_pc hpc]; exact tookError_raise _ s

/-! ### RET -/

theorem exec_ret_pop (hne : s.sp ≠ 0) (h : (s.sp - 1).toNat < 16) :
    exec .ret s = .next ((s.setSp (s.sp - 1)).setPc (s.slot ⟨(s.sp - 1).toNat, h⟩)) := by
  simp only [exec, execRet, if_neg hne, popAddr_ok h]

theorem exec_ret_empty (h : s.sp.toNat = 0) :
    exec .ret s = .next (s.setRun (.faulted (.stackUnderflow (instrAddr s)))) := if_pos (BitVec.eq_of_toNat_eq h)

theorem exec_ret_noSlot (h : 17 ≤ s.sp.toNat) : exec .ret s = .fault (.noStackSlot s.sp) := by
  have hne : s.sp ≠ 0 := fun e => absurd h (by rw [e]; decide)
  have hslot : 16 ≤ (s.sp - 1).toNat := by rw [sp_sub_one hne]; omega
  simp only [exec, execRet, if_neg hne, popAddr, stackSlot_none hslot]

theorem sp_ne_zero {j : Nat} (h : s.sp.toNat = j + 1) : s.sp ≠ 0 := fun e => by rw [e] at h; cases h

/-- A RET with SP = j + 1 takes slot j. -/
theorem exec_ret_slot {j : Nibble} (h : s.sp.toNat = j.val + 1) :
    exec .ret s = .next ((s.setSp (s.sp - 1)).setPc (s.slot j)) := by
  have hj : (s.sp - 1).toNat = j.val := by rw [sp_sub_one (sp_ne_zero h)]; omega
  have hslot : (⟨(s.sp - 1).toNat, hj ▸ j.isLt⟩ : Nibble) = j := Fin.ext hj
  rw [exec_ret_pop (sp_ne_zero h) (hj ▸ j.isLt), hslot]

/-- Settles O8: the pop reads the slot below SP, and the check for 0 comes before it. -/
theorem retPopsReturnAddress : Obligations.RetPopsReturnAddress := by
  intro s a hpc
  refine ⟨decodesTo_ret, fun j h => ⟨_, exec_ret_slot h, rfl, ?_, fun q => rfl, ?_⟩, fun h => ⟨_, exec_ret_empty h, ?_⟩⟩
  · exact (sp_sub_one (sp_ne_zero h)).trans (by omega)
  · exact unchangedBut_mono (unchangedBut_append (unchangedBut_setSp s _) (unchangedBut_setPc _ _)) (by simp)
  · rw [instrAddr_of_pc hpc]; exact tookError_raise _ s

/-- Settles O9: neither check stops such an SP, and there is no slot for it. -/
theorem absentStackSlotStops : Obligations.AbsentStackSlotStops := fun nnn _ h => ⟨exec_call_noSlot nnn h, exec_ret_noSlot h⟩

/-! ### CALL, then RET -/

/-- Where a step that runs CALL NNN leads, with fewer than 16 return addresses held. -/
def afterCall (nnn : Addr12) (s : State) (h : s.sp.toNat < 16) : State :=
  (((advancePc s).setSlot ⟨s.sp.toNat, h⟩ (s.pc + 2)).setSp (s.sp + 1)).setPc (zext16 nnn)

/-- Where a step that runs RET leads, with slot j the last one held. -/
def afterRet (j : Nibble) (s : State) : State := ((advancePc s).setSp (s.sp - 1)).setPc (s.slot j)

theorem step_call {w : Word} {nnn : Addr12} (hrun : s.run = .running) (hfetch : fetch s = .ok w)
    (hdecode : decode w = .ok (.call nnn)) (hsp : s.sp.toNat < 16) : step s = .next (afterCall nnn s hsp) :=
  (step_decoded hrun hfetch hdecode).trans (exec_call_push (s := advancePc s) nnn hsp)

/-- R54: the bytes 00 EE are the word of RET. -/
theorem step_ret {j : Nibble} (hrun : s.run = .running) (hf : fetchable s.params s.pc.toNat) (h0 : s.byteAt s.pc.toNat = 0x00)
    (h1 : s.byteAt (s.pc.toNat + 1) = 0xEE) (hsp : s.sp.toNat = j.val + 1) : step s = .next (afterRet j s) :=
  (step_decoded hrun (fetch_ok_of_toNat hf (by rw [h0, h1]; rfl)) decodesTo_ret).trans (exec_ret_slot (s := advancePc s) hsp)

theorem unchangedBut_afterCall (nnn : Addr12) (h : s.sp.toNat < 16) : unchangedBut [.pc, .stack] s (afterCall nnn s h) :=
  unchangedBut_trans (unchangedBut_mono (unchangedBut_setPc s (s.pc + 2)) (by simp))
    (completes_unchangedBut (i := .call nnn) (s := advancePc s) ⟨h, rfl⟩)

theorem unchangedBut_afterRet (j : Nibble) (s : State) : unchangedBut [.pc, .stack] s (afterRet j s) :=
  unchangedBut_mono (unchangedBut_append (unchangedBut_append (unchangedBut_setPc s (s.pc + 2)) (unchangedBut_setSp _ (s.sp - 1)))
    (unchangedBut_setPc _ (s.slot j))) (by simp)

theorem afterCall_slot (nnn : Addr12) (h : s.sp.toNat < 16) (j : Nibble) :
    (afterCall nnn s h).slot j = if j.val = s.sp.toNat then s.pc + 2 else s.slot j := by
  refine (State.slot_setSlot (advancePc s) ⟨s.sp.toNat, h⟩ j (s.pc + 2)).trans ?_
  simp only [Fin.ext_iff]; rfl

theorem afterCall_sp (nnn : Addr12) (h : s.sp.toNat < 16) : (afterCall nnn s h).sp = s.sp + 1 := rfl

theorem afterRet_sp (j : Nibble) (s : State) : (afterRet j s).sp = s.sp - 1 := rfl

theorem afterRet_pc (j : Nibble) (s : State) : (afterRet j s).pc = s.slot j := rfl

theorem afterRet_slot (j q : Nibble) (s : State) : (afterRet j s).slot q = s.slot q := rfl

/-- Settles O10: the RET finds SP one more and its own return address in the slot the CALL wrote. -/
theorem callThenRetReturns : Obligations.CallThenRetReturns := by
  intro s w nnn hrun hfetch hdecode hsp htarget h0 h1
  have hpc : (afterCall nnn s hsp).pc.toNat = nnn.toNat := zext16_addr_toNat nnn
  have hret : step (afterCall nnn s hsp) = .next (afterRet ⟨s.sp.toNat, hsp⟩ (afterCall nnn s hsp)) :=
    step_ret hrun (hpc.symm ▸ htarget) (hpc.symm ▸ h0) (hpc.symm ▸ h1) (sp_add_one (by omega))
  refine ⟨_, _, step_call hrun hfetch hdecode hsp, hret, ?_, ?_, fun j => ?_,
    unchangedBut_trans (unchangedBut_afterCall nnn hsp) (unchangedBut_afterRet _ _)⟩
  · rw [afterRet_pc, afterCall_slot, if_pos rfl]
  · rw [afterRet_sp, afterCall_sp]; exact BitVec.add_sub_cancel s.sp 1
  · rw [afterRet_slot, afterCall_slot]

end Sys2Proof.Machine
end

section
/-! Logic, arithmetic, shifts and random bytes (42_alu.md R174, R180 to R190): the result first, then the flag. -/

namespace Sys2Proof.Machine

variable {s : State} {x y : Nibble}

/-! ### The words -/

/-- The words 0x8XYn of the group 0x8. -/
theorem encXYN_8 (x y : Nibble) (n : Nat) : encXYN 0x8 x y n = u16 (0x8000 + n + 256 * x.val + 16 * y.val) :=
  congrArg u16 (by omega)

theorem decodesTo_addVxVy (x y : Nibble) : decodesTo (0x8004 + 256 * x.val + 16 * y.val) (.addVxVy x y) :=
  decodesTo_of_encode rfl (encXYN_8 x y 4)

theorem decodesTo_subVxVy (x y : Nibble) : decodesTo (0x8005 + 256 * x.val + 16 * y.val) (.subVxVy x y) :=
  decodesTo_of_encode rfl (encXYN_8 x y 5)

theorem decodesTo_subnVxVy (x y : Nibble) : decodesTo (0x8007 + 256 * x.val + 16 * y.val) (.subnVxVy x y) :=
  decodesTo_of_encode rfl (encXYN_8 x y 7)

theorem decodesTo_shrVxVy (x y : Nibble) : decodesTo (0x8006 + 256 * x.val + 16 * y.val) (.shrVxVy x y) :=
  decodesTo_of_encode rfl (encXYN_8 x y 6)

theorem decodesTo_shlVxVy (x y : Nibble) : decodesTo (0x800E + 256 * x.val + 16 * y.val) (.shlVxVy x y) :=
  decodesTo_of_encode rfl (encXYN_8 x y 0xE)

theorem decodesTo_rnd (x : Nibble) (kk : Byte) : decodesTo (0xC000 + 256 * x.val + kk.toNat) (.rnd x kk) :=
  decodesTo_of_encode rfl (congrArg u16 (by omega))

/-! ### Logic -/

theorem exec_orVxVy (x y : Nibble) (s : State) : exec (.orVxVy x y) s = .next (writeLogic x (s.reg x ||| s.reg y) s) := rfl

theorem exec_andVxVy (x y : Nibble) (s : State) : exec (.andVxVy x y) s = .next (writeLogic x (s.reg x &&& s.reg y) s) := rfl

theorem exec_xorVxVy (x y : Nibble) (s : State) : exec (.xorVxVy x y) s = .next (writeLogic x (s.reg x ^^^ s.reg y) s) := rfl

/-- The bits of every register after `writeLogic`, the result's bits given. -/
theorem writeLogic_bit {r : Byte} {bit : Nat → Bool} (hbit : ∀ k, r.getLsbD k = bit k) (q : Nibble) (k : Nat) :
    ((writeLogic x r s).reg q).getLsbD k =
      if q = 15 ∧ s.params.logicVf = .reset then false else if q = x then bit k else (s.reg q).getLsbD k := by
  rw [writeLogic_reg]
  split
  · exact BitVec.getLsbD_zero
  · split
    · exact hbit k
    · rfl

/-- Settles O16: the three share `writeLogic`, and differ in the bit operation and the low nibble of the word. -/
theorem logicIsBitwise : Obligations.LogicIsBitwise := by
  intro x y s i op sub hmem
  simp only [List.mem_cons, Prod.mk.injEq, List.not_mem_nil, or_false] at hmem
  rcases hmem with ⟨rfl, rfl, rfl⟩ | ⟨rfl, rfl, rfl⟩ | ⟨rfl, rfl, rfl⟩
  · exact ⟨decodesTo_of_encode rfl (congrArg u16 (by omega)), _, exec_orVxVy x y s,
      writeLogic_bit fun _ => BitVec.getLsbD_or, unchangedBut_writeLogic _ _ _⟩
  · exact ⟨decodesTo_of_encode rfl (congrArg u16 (by omega)), _, exec_andVxVy x y s,
      writeLogic_bit fun _ => BitVec.getLsbD_and, unchangedBut_writeLogic _ _ _⟩
  · exact ⟨decodesTo_of_encode rfl (congrArg u16 (by omega)), _, exec_xorVxVy x y s,
      writeLogic_bit fun _ => BitVec.getLsbD_xor, unchangedBut_writeLogic _ _ _⟩

/-! ### Results with a flag -/

theorem exec_addVxVy (x y : Nibble) (s : State) : exec (.addVxVy x y) s =
    .next (writeWithFlag x (u8 ((s.reg x).toNat + (s.reg y).toNat)) (carryFlag (s.reg x) (s.reg y)) s) := rfl

theorem exec_subVxVy (x y : Nibble) (s : State) : exec (.subVxVy x y) s =
    .next (writeWithFlag x (u8 ((s.reg x).toNat + 256 - (s.reg y).toNat)) (noBorrowFlag (s.reg x) (s.reg y)) s) := rfl

theorem exec_subnVxVy (x y : Nibble) (s : State) : exec (.subnVxVy x y) s =
    .next (writeWithFlag x (u8 ((s.reg y).toNat + 256 - (s.reg x).toNat)) (noBorrowFlag (s.reg y) (s.reg x)) s) := rfl

theorem exec_shrVxVy (x y : Nibble) (s : State) : exec (.shrVxVy x y) s =
    .next (writeWithFlag x (shiftOperand x y s >>> 1) (shiftedOutRight (shiftOperand x y s)) s) := rfl

theorem exec_shlVxVy (x y : Nibble) (s : State) : exec (.shlVxVy x y) s =
    .next (writeWithFlag x (shiftOperand x y s <<< 1) (shiftedOutLeft (shiftOperand x y s)) s) := rfl

/-- D9: the values of every register after `writeWithFlag`, the result's and the flag's given. -/
theorem writeWithFlag_toNat {r : Byte} {f : Bool} {flag res : Nat} (hf : (flagByte f).toNat = flag) (hr : r.toNat = res)
    (q : Nibble) : ((writeWithFlag x r f s).reg q).toNat = if q = 15 then flag else if q = x then res else (s.reg q).toNat := by
  rw [writeWithFlag_reg]
  split
  · exact hf
  · split
    · exact hr
    · rfl

theorem flagByte_decide (p : Prop) [Decidable p] : (flagByte (decide p)).toNat = if p then 1 else 0 := by
  rw [flagByte_toNat]; simp only [decide_eq_true_eq]

/-- R184, R186: the difference of two bytes, taken modulo 256. -/
theorem u8_sub_toNat (a b : Byte) :
    (u8 (a.toNat + 256 - b.toNat)).toNat = if a.toNat ≥ b.toNat then a.toNat - b.toNat else 256 - (b.toNat - a.toNat) := by
  have := a.isLt; have := b.isLt
  rw [u8_toNat_mod]
  split <;> omega

/-- Settles O17: the carry is the exact sum's, and the sum goes through `u8`. -/
theorem addSetsCarry : Obligations.AddSetsCarry := fun x y s =>
  ⟨decodesTo_addVxVy x y, _, exec_addVxVy x y s, writeWithFlag_toNat (flagByte_decide _) (u8_toNat_mod _),
    unchangedBut_writeWithFlag _ _ _ _⟩

/-- Settles O18: the flag is the comparison of the operands, read before the write. -/
theorem subSetsNoBorrow : Obligations.SubSetsNoBorrow := fun x y s =>
  ⟨decodesTo_subVxVy x y, _, exec_subVxVy x y s, writeWithFlag_toNat (flagByte_decide _) (u8_sub_toNat _ _),
    unchangedBut_writeWithFlag _ _ _ _⟩

/-- Settles O19: SUBN is SUB with the operands exchanged, but for the register that is written. -/
theorem subnSetsNoBorrow : Obligations.SubnSetsNoBorrow := fun x y s =>
  ⟨decodesTo_subnVxVy x y, _, exec_subnVxVy x y s, writeWithFlag_toNat (flagByte_decide _) (u8_sub_toNat _ _),
    unchangedBut_writeWithFlag _ _ _ _⟩

/-! ### Shifts -/

/-- R185, R188, D12: the byte a shift reads. -/
theorem shiftOperand_toNat (x y : Nibble) (s : State) :
    (shiftOperand x y s).toNat = if s.params.shiftSrc = .vx then (s.reg x).toNat else (s.reg y).toNat := by
  unfold shiftOperand
  cases h : s.params.shiftSrc <;> simp

theorem shiftRight_one_toNat (b : Byte) : (b >>> 1).toNat = b.toNat / 2 := by
  rw [BitVec.toNat_ushiftRight, Nat.shiftRight_eq_div_pow]

theorem shiftLeft_one_toNat (b : Byte) : (b <<< 1).toNat = 2 * b.toNat % 256 := by
  rw [BitVec.toNat_shiftLeft, Nat.shiftLeft_eq]; omega

theorem shiftedOutRight_toNat (b : Byte) : (flagByte (shiftedOutRight b)).toNat = b.toNat % 2 := by
  rw [shiftedOutRight, BitVec.getLsbD, Nat.testBit_zero, flagByte_decide]
  split <;> omega

theorem shiftedOutLeft_toNat (b : Byte) : (flagByte (shiftedOutLeft b)).toNat = b.toNat / 128 := by
  rw [shiftedOutLeft, BitVec.getLsbD, Nat.testBit_eq_decide_div_mod_eq, flagByte_decide]
  split <;> omega

/-- Settles O20: the two shifts share their source, and each moves one bit out of it into the flag. -/
theorem shiftsMoveOneBitIntoVF : Obligations.ShiftsMoveOneBitIntoVF := by
  intro x y s v hv
  rw [← shiftOperand_toNat] at hv
  subst hv
  refine ⟨decodesTo_shrVxVy x y, decodesTo_shlVxVy x y, ⟨_, exec_shrVxVy x y s, ?_, unchangedBut_writeWithFlag _ _ _ _⟩,
    ⟨_, exec_shlVxVy x y s, ?_, unchangedBut_writeWithFlag _ _ _ _⟩⟩
  · exact writeWithFlag_toNat (shiftedOutRight_toNat _) (shiftRight_one_toNat _)
  · exact writeWithFlag_toNat (shiftedOutLeft_toNat _) (shiftLeft_one_toNat _)

/-! ### Random bytes -/

theorem exec_rnd (x : Nibble) (kk : Byte) (s : State) :
    exec (.rnd x kk) s = .next (s.setReg x (drawRand s &&& kk)).countDraw := rfl

/-- Settles O21: the drawn byte is masked bit by bit, and one draw is counted. -/
theorem randomIsMaskedDraw : Obligations.RandomIsMaskedDraw := by
  intro x kk s
  refine ⟨decodesTo_rnd x kk, _, exec_rnd x kk s, rfl, fun k => ?_, fun r hr => ?_,
    unchangedBut_append (unchangedBut_setReg s x _) (unchangedBut_countDraw _)⟩
  · rw [State.countDraw_reg, State.reg_setReg, if_pos rfl, BitVec.getLsbD_and, drawRand]
  · rw [State.countDraw_reg, State.reg_setReg, if_neg hr]

end Sys2Proof.Machine
end

section
/-! DRW (43_display.md R201 to R206): the wrapped sprite is XORed into the display, and VF says whether a set pixel was unset. -/

namespace Sys2Proof.Machine

variable {s t : State} {x y n : Nibble} {r : Fin 32} {c : Fin 64}

theorem decodesTo_drw (x y n : Nibble) : decodesTo (0xD000 + 256 * x.val + 16 * y.val + n.val) (.drw x y n) :=
  decodesTo_of_encode rfl (congrArg u16 (by omega))

/-! ### The state after a draw -/

/-- The pixel is under a 1 bit of the sprite this DRW draws. -/
def Covered (x y n : Nibble) (s : State) (r : Fin 32) (c : Fin 64) : Prop :=
  spriteCovers s (s.reg x).toNat (s.reg y).toNat n.val r c

/-- The display and the collision of this DRW. -/
def drawnCanvas (x y n : Nibble) (s : State) : Canvas :=
  drawSprite (s.reg x) (s.reg y) (readBytes s.mem s.i.toNat n.val) s.disp

/-- Where a DRW whose sprite lies in memory leads. -/
def afterDrw (x y n : Nibble) (s : State) : State := setFlag (drawnCanvas x y n s).2 (s.setDisp (drawnCanvas x y n s).1)

theorem exec_drw (h : n.val = 0 ∨ s.i.toNat + n.val ≤ 0x1000) : exec (.drw x y n) s = .next (afterDrw x y n s) := by
  simp only [exec, execDrw, readRange_ok h, orRaise_ok, afterDrw, drawnCanvas]

theorem exec_drw_outside (h : ¬(n.val = 0 ∨ s.i.toNat + n.val ≤ 0x1000)) : exec (.drw x y n) s =
    .next (s.setRun (.faulted (.outOfBounds (if s.i.toNat ≤ 0xFFF then 0x1000 else s.i.toNat)))) := by
  simp only [exec, execDrw, readRange_error h, orRaise_error]

theorem afterDrw_disp (x y n : Nibble) (s : State) : (afterDrw x y n s).disp = (drawnCanvas x y n s).1 := rfl

theorem afterDrw_reg (x y n : Nibble) (s : State) (q : Nibble) :
    (afterDrw x y n s).reg q = if q = 15 then flagByte (drawnCanvas x y n s).2 else s.reg q := State.reg_setReg _ _ _ _

theorem unchangedBut_afterDrw (x y n : Nibble) (s : State) : unchangedBut [.display, .regs] s (afterDrw x y n s) :=
  unchangedBut_append (unchangedBut_setDisp s _) (unchangedBut_setReg _ _ _)

/-- R202: a pixel is flipped exactly where the sprite covers it. -/
theorem drawnCanvas_pixel : Display.pixel (drawnCanvas x y n s).1 r c = true ↔
    ¬(Display.pixel s.disp r c = true ↔ Covered x y n s r c) := by
  have hlen : (readBytes s.mem s.i.toNat n.val).length ≤ 32 := by rw [readBytes_length]; omega
  rw [drawnCanvas, (drawSprite_spec hlen s.disp).1 r c, Covered, ← mem_spriteTargets_iff_covers]
  split <;> simp [*]

/-- R202, R203: a collision is a covered pixel that was set. -/
theorem drawnCanvas_collision : (drawnCanvas x y n s).2 = true ↔
    ∃ r c, Covered x y n s r c ∧ Display.pixel s.disp r c = true := by
  have hlen : (readBytes s.mem s.i.toNat n.val).length ≤ 32 := by rw [readBytes_length]; omega
  rw [drawnCanvas, (drawSprite_spec hlen s.disp).2, Prod.exists]
  exact exists_congr fun r => exists_congr fun c => and_congr_left fun _ => mem_spriteTargets_iff_covers

theorem flagByte_zero_or_one (b : Bool) : flagByte b = 0 ∨ flagByte b = 1 := by cases b <;> simp [flagByte]

theorem flagByte_eq_one {b : Bool} : flagByte b = 1 ↔ b = true := by cases b <;> simp [flagByte]

/-- VF after a draw. -/
theorem afterDrw_flag : (afterDrw x y n s).reg 15 = 1 ↔ ∃ r c, Covered x y n s r c ∧ Display.pixel s.disp r c = true := by
  rw [afterDrw_reg, if_pos rfl, flagByte_eq_one, drawnCanvas_collision]

/-- A pixel that was set is unset exactly where it is covered. -/
theorem pixel_erased_iff (h : Display.pixel s.disp r c = true) :
    Display.pixel (drawnCanvas x y n s).1 r c = false ↔ Covered x y n s r c := by
  rw [← Bool.not_eq_true, drawnCanvas_pixel, not_not]
  exact ⟨fun e => e.mp h, fun hc => ⟨fun _ => hc, fun _ => h⟩⟩

/-- Settles O23: the pixels the loops toggle are those the sprite covers, each once. -/
theorem drwXorsWrappedSprite : Obligations.DrwXorsWrappedSprite := by
  intro x y n s
  refine ⟨decodesTo_drw x y n, fun h => ⟨_, exec_drw h, fun r c => drawnCanvas_pixel, ?_, ?_, fun r hr => ?_,
    unchangedBut_afterDrw x y n s⟩⟩
  · rw [afterDrw_reg, if_pos rfl]; exact flagByte_zero_or_one _
  · rw [afterDrw_flag]
    refine exists_congr fun r => exists_congr fun c => ?_
    rw [and_comm, afterDrw_disp]
    exact and_congr_right fun hset => (pixel_erased_iff hset).symm
  · rw [afterDrw_reg, if_neg hr]

/-- Settles O24: the check before the first read names I itself, or 0x1000 when I lies in memory. -/
theorem drwOutsideMemoryFaults : Obligations.DrwOutsideMemoryFaults := by
  intro x y n s addr hle hlt hout hlow
  have hprev := hlow (addr - 1)
  have hfirst := hlow s.i.toNat le_rfl
  have haddr : addr = if s.i.toNat ≤ 0xFFF then 0x1000 else s.i.toNat := by split <;> omega
  rw [haddr]
  exact ⟨_, exec_drw_outside (by omega), tookError_raise _ s⟩

/-! ### Drawing twice -/

/-- What a sprite covers depends on I, memory and the wrapped coordinates only. -/
theorem spriteCovers_congr {x0 y0 x1 y1 k : Nat} (hi : t.i = s.i) (hm : ∀ a, t.byteAt a = s.byteAt a) (hx : x1 % 64 = x0 % 64)
    (hy : y1 % 32 = y0 % 32) : spriteCovers t x1 y1 k r c ↔ spriteCovers s x0 y0 k r c := by
  have hrow : ∀ row, (y1 + row) % 32 = (y0 + row) % 32 := fun row => by omega
  have hcol : ∀ col, (x1 + col) % 64 = (x0 + col) % 64 := fun col => by omega
  simp only [spriteCovers, hi, hm, hrow, hcol]

/-- Settles O25: the second draw covers the same pixels, so it flips them back, and it erases those the first one set. -/
theorem drwTwiceRestoresDisplay : Obligations.DrwTwiceRestoresDisplay := by
  intro x y n s t h hexec hx hy
  rw [exec_drw h] at hexec
  obtain rfl := Host.Outcome.next.inj hexec
  have hframe := unchangedBut_afterDrw x y n s
  have hi : (afterDrw x y n s).i = s.i := hframe .index (by decide)
  have hcov : ∀ r c, Covered x y n (afterDrw x y n s) r c ↔ Covered x y n s r c := fun r c =>
    spriteCovers_congr hi (hframe .memory (by decide)) hx hy
  refine ⟨_, exec_drw (hi.symm ▸ h), fun comp hcomp => ?_, ?_⟩
  · by_cases hd : comp = .display
    · subst hd
      intro r c
      rw [Bool.eq_iff_iff, afterDrw_disp, drawnCanvas_pixel, hcov, afterDrw_disp, drawnCanvas_pixel]
      tauto
    · exact unchangedBut_trans hframe (unchangedBut_afterDrw x y n _) comp (by simp_all)
  · rw [afterDrw_flag]
    refine exists_congr fun r => exists_congr fun c => ?_
    rw [hcov, afterDrw_disp, drawnCanvas_pixel]
    show Covered x y n s r c ∧ _ ↔ Covered x y n s r c ∧ _
    rw [← Bool.not_eq_true]
    tauto

end Sys2Proof.Machine
end

section
/-! The keypad (44_keypad_timers.md R220 to R222, R226; 40_cycle.md R117): skips on a key, and the wait for one. -/

namespace Sys2Proof.Machine

variable {s : State} {x k : Nibble} {a : Word}

theorem decodesTo_skp (x : Nibble) : decodesTo (0xE09E + 256 * x.val) (.skp x) :=
  decodesTo_of_encode rfl (congrArg u16 (by omega))

theorem decodesTo_sknp (x : Nibble) : decodesTo (0xE0A1 + 256 * x.val) (.sknp x) :=
  decodesTo_of_encode rfl (congrArg u16 (by omega))

theorem decodesTo_ldVxK (x : Nibble) : decodesTo (0xF00A + 256 * x.val) (.ldVxK x) :=
  decodesTo_of_encode rfl (congrArg u16 (by omega))

/-! ### Skips -/

theorem exec_skp (h : keyIndex (s.reg x) s = .ok k) : exec (.skp x) s = .next (skipIf (s.pressed k) s) := by
  simp only [exec, execSkp, h, orRaise_ok]

theorem exec_sknp (h : keyIndex (s.reg x) s = .ok k) : exec (.sknp x) s = .next (skipIf (!s.pressed k) s) := by
  simp only [exec, execSknp, h, orRaise_ok]

theorem exec_skp_error {e : Error} (h : keyIndex (s.reg x) s = .error e) : exec (.skp x) s = .next (s.setRun (.faulted e)) := by
  simp only [exec, execSkp, h, orRaise_error]

theorem exec_sknp_error {e : Error} (h : keyIndex (s.reg x) s = .error e) : exec (.sknp x) s = .next (s.setRun (.faulted e)) := by
  simp only [exec, execSknp, h, orRaise_error]

/-- Settles O26: both instructions take their key from `keyIndex`, and are one `skipIf` on its level. -/
theorem keySkipsReadTheKey : Obligations.KeySkipsReadTheKey := by
  intro x s a hpc
  refine ⟨decodesTo_skp x, decodesTo_sknp x, fun k hk => ?_, fun hv hp => ?_⟩
  · have hkey := keyIndex_ok hk
    refine ⟨⟨_, exec_skp hkey, skipIf_pc hpc _, unchangedBut_skipIf _ s⟩, ⟨_, exec_sknp hkey, ?_, unchangedBut_skipIf _ s⟩⟩
    rw [skipIf_pc hpc]
    cases s.pressed k <;> rfl
  · have hkey := keyIndex_error hv hp
    rw [instrAddr_of_pc hpc] at hkey
    exact ⟨⟨_, exec_skp_error hkey, tookError_raise _ s⟩, ⟨_, exec_sknp_error hkey, tookError_raise _ s⟩⟩

/-! ### The key wait -/

theorem exec_ldVxK (x : Nibble) (s : State) :
    exec (.ldVxK x) s = .next ((s.setRun (.waitingForKey x)).setPc (instrAddr s)) := rfl

/-- Settles O28: PC goes back to the instruction's own address, and no key is read. -/
theorem keyWaitHoldsPc : Obligations.KeyWaitHoldsPc := fun x s _ hpc =>
  ⟨decodesTo_ldVxK x, _, exec_ldVxK x s, rfl, instrAddr_of_pc hpc,
    unchangedBut_append (unchangedBut_setRun s _) (unchangedBut_setPc _ _)⟩

theorem poll_none (h : leastPressed s = none) : poll x s = s := by simp only [poll, h]

theorem poll_some (h : leastPressed s = some k) :
    poll x s = ((s.setReg x (keyByte k)).setPc (s.pc + 2)).setRun .running := by simp only [poll, h]

theorem keyByte_toNat (k : Nibble) : (keyByte k).toNat = k.val := u8_toNat (by omega)

/-- Settles O29: a poll takes the least pressed key, and without one changes nothing. -/
theorem pollCompletesOnLeastKey : Obligations.PollCompletesOnLeastKey := by
  intro x s hwait
  refine ⟨fun hno => ?_, fun k hk hleast => ⟨_, (step_waiting hwait).trans (congrArg _ (poll_some (leastPressed_some hk hleast))),
    rfl, rfl, fun r => ?_, ?_⟩⟩
  · rw [step_waiting hwait, poll_none (leastPressed_none hno)]
  · rw [State.setRun_reg, State.setPc_reg, State.reg_setReg, apply_ite BitVec.toNat, keyByte_toNat]
  · exact unchangedBut_mono (unchangedBut_append (unchangedBut_append (unchangedBut_setReg s x _) (unchangedBut_setPc _ _))
      (unchangedBut_setRun _ _)) (by simp)

end Sys2Proof.Machine
end

section
/-! Reset, construction and loading (10_state.md R43, 70_reset_and_hazards.md R290, R292, 20_memory.md R62, R63). -/

namespace Sys2Proof.Machine

variable {p : Params} {font : List Byte} {init : Nat → Byte} {a : Nat}

/-! ### Reading what was loaded -/

/-- The k-th byte of a stored run stands k above its start. -/
theorem read_writeBytes_getElem (bs : List Byte) (m : Memory) (start : Nat) {k : Nat} (h : k < bs.length) :
    (writeBytes m start bs).read (start + k) = bs[k] := by
  rw [read_writeBytes, dif_pos ⟨by omega, by omega⟩]
  simp only [Nat.add_sub_cancel_left]

/-- `P_INIT_MEM` stands at every address, and nothing above. -/
theorem initialMemory_read (h : a ≤ 0xFFF) : (initialMemory init).read a = init a := by
  have hlen : a < ((List.range 0x1000).map init).length := by rw [List.length_map, List.length_range]; omega
  have hread := read_writeBytes_getElem ((List.range 0x1000).map init) [] 0 hlen
  rw [Nat.zero_add, List.getElem_map, List.getElem_range] at hread
  exact hread

theorem initialMemory_read_above (h : 0xFFF < a) : (initialMemory init).read a = unlistedByte a :=
  read_writeBytes_outside (m := []) (.inr (by rw [List.length_map, List.length_range]; omega))

theorem initialMemory_wf (init : Nat → Byte) : (initialMemory init).wf :=
  writeBytes_wf Memory.nil_wf (by rw [List.length_map, List.length_range])

theorem construct_byteAt_font {k : Nat} (h : k < font.length) : (construct p font init).byteAt (p.fontBase + k) = font[k] :=
  read_writeBytes_getElem font _ _ h

theorem construct_byteAt_outside (h : a < p.fontBase ∨ p.fontBase + font.length ≤ a) :
    (construct p font init).byteAt a = (initialMemory init).read a := read_writeBytes_outside h

theorem construct_byteAt_init (ha : a ≤ 0xFFF) (h : a < p.fontBase ∨ p.fontBase + font.length ≤ a) :
    (construct p font init).byteAt a = init a := (construct_byteAt_outside h).trans (initialMemory_read ha)

theorem construct_mem_wf (hp : p.wf) (hfont : font.length = 80) : (construct p font init).mem.wf :=
  writeBytes_wf (initialMemory_wf init) (by rw [hfont]; omega)

/-! ### The reset state -/

theorem reset_byteAt (a : Nat) : State.reset.byteAt a = unlistedByte a := rfl

/-- R34: the font digit by digit, each sprite's five bytes as one number. -/
theorem reset_font_bytes : ∀ (d : Fin 16) (k : Fin 5), (State.reset.byteAt (0x050 + 5 * d.val + k.val)).toNat =
    ([0xF0909090F0, 0x2060202070, 0xF010F080F0, 0xF010F010F0, 0x9090F01010, 0xF080F010F0, 0xF080F090F0, 0xF010204040,
      0xF090F090F0, 0xF090F010F0, 0xF090F09090, 0xE090E090E0, 0xF0808080F0, 0xE0909090E0, 0xF080F080F0, 0xF080F08080][d.val]'d.isLt)
      / 256 ^ (4 - k.val) % 256 := by
  decide

theorem unlistedByte_outside_font (h : a < 0x050 ∨ 0x0A0 ≤ a) : unlistedByte a = 0 :=
  if_neg fun hin => by have := hin.1; have := hin.2; simp only [hardware] at *; omega

/-- Settles O1: the registers are vectors of zeros, and an unlisted byte reads as the font or as 0x00. -/
theorem resetState : Obligations.ResetState :=
  ⟨rfl, rfl, rfl, rfl, rfl, rfl, fun r => by simp [State.reg, State.reset], fun j => by simp [State.slot, State.reset],
    Display.pixel_clear, fun k => by simp [State.pressed, State.reset], fun d k hk hd => reset_font_bytes ⟨d, hd⟩ ⟨k, hk⟩,
    fun a ha => unlistedByte_outside_font (ha.imp_right And.left)⟩

theorem unchangedBut_params (s : State) (p : Params) : unchangedBut [.params] s { s with params := p } := by
  intro c hc; cases c <;> simp_all [Component.same, State.byteAt, State.reg, State.slot, State.pressed]

theorem unchangedBut_construct (p : Params) (font : List Byte) (init : Nat → Byte) :
    unchangedBut [.memory, .params] State.reset (construct p font init) :=
  unchangedBut_append (unchangedBut_setMem State.reset (loadFont p font (initialMemory init))) (unchangedBut_params _ p)

theorem hardware_wf : hardware.wf := by decide

theorem fontBytes_length : fontBytes.length = 80 := rfl

theorem unlistedByte_font {k : Nat} (h : k < fontBytes.length) : unlistedByte (hardware.fontBase + k) = fontBytes[k] := by
  have hin : hardware.fontBase ≤ hardware.fontBase + k ∧ hardware.fontBase + k < hardware.fontBase + 80 :=
    ⟨by omega, by rw [fontBytes_length] at h; omega⟩
  rw [unlistedByte, if_pos hin, Nat.add_sub_cancel_left, List.getD_eq_getElem _ _ h]

/-- R43: with this hardware's parameters, font and zero memory, every address reads as an unlisted one. -/
theorem construct_hardware_byteAt (a : Nat) : (construct hardware fontBytes fun _ => 0).byteAt a = unlistedByte a := by
  by_cases hfont : hardware.fontBase ≤ a ∧ a < hardware.fontBase + fontBytes.length
  · obtain ⟨k, rfl⟩ := Nat.exists_eq_add_of_le hfont.1
    have hk : k < fontBytes.length := by omega
    exact (construct_byteAt_font hk).trans (unlistedByte_font hk).symm
  have hout : a < hardware.fontBase ∨ hardware.fontBase + fontBytes.length ≤ a := by omega
  by_cases ha : a ≤ 0xFFF
  · rw [construct_byteAt_init ha hout, unlistedByte_outside_font hout]
  · exact (construct_byteAt_outside hout).trans (initialMemory_read_above (by omega))

theorem construct_hardware_params (font : List Byte) (init : Nat → Byte) :
    construct hardware font init = State.reset.setMem (construct hardware font init).mem := rfl

/-- Log 3: the canonical memory lists nothing that reads as it does unlisted. -/
theorem construct_hardware : construct hardware fontBytes (fun _ => 0) = State.reset := by
  have hwf : (construct hardware fontBytes fun _ => 0).mem.wf := construct_mem_wf hardware_wf fontBytes_length
  have hmem : (construct hardware fontBytes fun _ => 0).mem = [] :=
    Memory.ext_of_read hwf Memory.nil_wf construct_hardware_byteAt
  calc construct hardware fontBytes (fun _ => 0)
      = State.reset.setMem (construct hardware fontBytes fun _ => 0).mem := construct_hardware_params _ _
    _ = State.reset := congrArg State.reset.setMem hmem

/-- Settles O2: the font is stored over the initial memory, and nothing else but the parameters differs from the reset state. -/
theorem constructedState : Obligations.ConstructedState := by
  refine ⟨fun p font init hp hfont => ⟨rfl, unchangedBut_construct p font init, fun k h => construct_byteAt_font h,
    fun a ha hout => construct_byteAt_init ha (by rwa [hfont])⟩, construct_hardware⟩

/-! ### Loading a program -/

theorem loadProgram_ok {rom : List Byte} (h : rom.length ≤ 3584) (s : State) :
    loadProgram rom s = .ok (s.setMem (writeBytes s.mem 0x200 rom)) := if_neg (by omega)

/-- Settles O3: the length is checked first, and then one run of bytes is stored at 0x200. -/
theorem loadProgramAllOrNothing : Obligations.LoadProgramAllOrNothing := by
  intro rom s
  refine ⟨fun h => if_pos h, fun h => ⟨_, loadProgram_ok h s, fun k hk => read_writeBytes_getElem rom s.mem 0x200 hk,
    fun a ha => read_writeBytes_outside ha, unchangedBut_setMem s _⟩⟩

/-- Settles O4: the ROM's first two bytes stand at 0x200 and 0x201, where a fetch succeeds under every parameter. -/
theorem bootFetchesFirstRomWord : Obligations.BootFetchesFirstRomWord := by
  intro p font init hi lo rom hlen
  have hload := loadProgram_ok (rom := hi :: lo :: rom) (by simp only [List.length_cons]; omega) (construct p font init)
  refine ⟨_, wordOfBytes hi lo, hload, rfl, rfl, ?_, wordOfBytes_toNat hi lo⟩
  rw [fetch_ok_iff]
  refine ⟨fetchable_entry _, ?_⟩
  congr 1
  · exact (read_writeBytes_getElem (hi :: lo :: rom) _ 0x200 (k := 0) (by simp)).symm
  · exact (read_writeBytes_getElem (hi :: lo :: rom) _ 0x200 (k := 1) (by simp)).symm

end Sys2Proof.Machine
end

section
/-! The index register and memory (45_index_memory.md R241 to R248, 20_memory.md R57 to R59, R66). -/

namespace Sys2Proof.Machine

variable {s t : State} {x : Nibble} {a : Word}

/-! ### The words -/

/-- The words 0xFXkk of the group 0xF. -/
theorem encX_F (x : Nibble) (sub : Nat) : encX 0xF x sub = u16 (0xF000 + sub + 256 * x.val) := congrArg u16 (by omega)

theorem decodesTo_addIVx (x : Nibble) : decodesTo (0xF01E + 256 * x.val) (.addIVx x) := decodesTo_of_encode rfl (encX_F x 0x1E)

theorem decodesTo_ldFVx (x : Nibble) : decodesTo (0xF029 + 256 * x.val) (.ldFVx x) := decodesTo_of_encode rfl (encX_F x 0x29)

theorem decodesTo_ldBVx (x : Nibble) : decodesTo (0xF033 + 256 * x.val) (.ldBVx x) := decodesTo_of_encode rfl (encX_F x 0x33)

theorem decodesTo_ldMemVx (x : Nibble) : decodesTo (0xF055 + 256 * x.val) (.ldMemVx x) := decodesTo_of_encode rfl (encX_F x 0x55)

theorem decodesTo_ldVxMem (x : Nibble) : decodesTo (0xF065 + 256 * x.val) (.ldVxMem x) := decodesTo_of_encode rfl (encX_F x 0x65)

/-! ### The index register -/

theorem exec_addIVx (x : Nibble) (s : State) :
    exec (.addIVx x) s = .next (s.setI (u16 (s.i.toNat + (s.reg x).toNat))) := rfl

/-- Settles O33: the sum goes through `u16` into I, and no register is written. -/
theorem addIndexWraps : Obligations.AddIndexWraps := fun x s =>
  ⟨decodesTo_addIVx x, _, exec_addIVx x s, BitVec.toNat_ofNat _ 16, unchangedBut_setI s _⟩

theorem exec_ldFVx {d : Nat} (h : fontDigit (s.reg x) s = .ok d) : exec (.ldFVx x) s = .next (s.setI (fontAddress d s)) := by
  simp only [exec, execLdFVx, h, orRaise_ok]

theorem exec_ldFVx_error {e : Error} (h : fontDigit (s.reg x) s = .error e) :
    exec (.ldFVx x) s = .next (s.setRun (.faulted e)) := by
  simp only [exec, execLdFVx, h, orRaise_error]

/-- R242: the digit is the byte when it is small or used raw, its low nibble when it is masked. -/
theorem fontDigit_ok {b : Byte} {d : Nat} (h : (b.toNat ≤ 15 ∨ s.params.fontDigit = .raw) ∧ d = b.toNat ∨
    15 < b.toNat ∧ s.params.fontDigit = .mask ∧ d = b.toNat % 16) : fontDigit b s = .ok d := by
  unfold fontDigit
  rcases h with ⟨hle | hraw, rfl⟩ | ⟨hlt, hmask, rfl⟩
  · rw [if_pos hle]
  · rw [hraw, ite_self]
  · rw [if_neg (by omega), hmask]

/-- Settles O34: D2 keeps the font low enough that no digit's address wraps. -/
theorem loadFontAddress : Obligations.LoadFontAddress := by
  intro x s a hpc hwf
  refine ⟨decodesTo_ldFVx x, fun d hd => ⟨_, exec_ldFVx (fontDigit_ok hd), ?_, unchangedBut_setI s _⟩, fun hv hp => ?_⟩
  · have hd' : d < 256 := by have := (s.reg x).isLt; omega
    exact u16_toNat (by omega)
  · have herr := fontDigit_error hv hp
    rw [instrAddr_of_pc hpc] at herr
    exact ⟨_, exec_ldFVx_error herr, tookError_raise _ s⟩

/-! ### Storing -/

theorem exec_ldBVx (h : writeRange s.i.toNat (bcdDigits (s.reg x)) s = .ok t) : exec (.ldBVx x) s = .next t := by
  simp only [exec, execLdBVx, h, orRaise_ok]

theorem exec_ldBVx_error {e : Error} (h : writeRange s.i.toNat (bcdDigits (s.reg x)) s = .error e) :
    exec (.ldBVx x) s = .next (s.setRun (.faulted e)) := by
  simp only [exec, execLdBVx, h, orRaise_error]

theorem bcdDigits_length (b : Byte) : (bcdDigits b).length = 3 := rfl

/-- Settles O35: the checks of the whole range come first, and then one run of three bytes is stored at I. -/
theorem bcdStoresDecimalDigits : Obligations.BcdStoresDecimalDigits := by
  intro x s
  refine ⟨decodesTo_ldBVx x, fun hmem hlow => ?_, fun hout => ?_, fun hlow hp =>
    ⟨_, exec_ldBVx_error (writeRange_reserved (by simp [bcdDigits]) hlow hp), tookError_raise _ s⟩⟩
  · have hlt := (s.reg x).isLt
    have hlen := bcdDigits_length (s.reg x)
    have hbyte : ∀ k, ∀ h : k < 3, (s.setMem (writeBytes s.mem s.i.toNat (bcdDigits (s.reg x)))).byteAt (s.i.toNat + k) =
      (bcdDigits (s.reg x))[k]'h := fun k h => read_writeBytes_getElem _ _ _ h
    refine ⟨_, exec_ldBVx (writeRange_ok (.inr (by omega)) hlow), ?_, ?_, ?_, fun b hb => read_writeBytes_outside (by omega),
      unchangedBut_setMem s _⟩
    · exact (congrArg BitVec.toNat (hbyte 0 (by decide))).trans (u8_toNat (by omega))
    · exact (congrArg BitVec.toNat (hbyte 1 (by decide))).trans (u8_toNat (by omega))
    · exact (congrArg BitVec.toNat (hbyte 2 (by decide))).trans (u8_toNat (by omega))
  · have hlen := bcdDigits_length (s.reg x)
    exact ⟨_, exec_ldBVx_error (writeRange_outOfBounds (by omega) (by omega) (.inl (by omega))), tookError_raise _ s⟩

/-! ### The register dump -/

theorem finishIndex_byteAt (x : Nibble) (s : State) (b : Nat) : (finishIndex x s).byteAt b = s.byteAt b := by
  rw [finishIndex_eq]; rfl

theorem finishIndex_pc (x : Nibble) (s : State) : (finishIndex x s).pc = s.pc := by
  rw [finishIndex_eq]

/-- R245, D13: I by `Q_MEM_I`, where the range lies in memory. -/
theorem finishIndex_i_toNat (h : s.i.toNat + x.val ≤ 0xFFF) : (finishIndex x s).i.toNat =
    if s.params.memI = .unchanged then s.i.toNat else s.i.toNat + x.val + 1 := by
  unfold finishIndex
  cases s.params.memI with
  | unchanged => rfl
  | increment => exact u16_toNat (by omega)

/-- The state a register dump leads to when its range passes the checks. -/
def afterDump (x : Nibble) (s : State) : State := finishIndex x (s.setMem (writeBytes s.mem s.i.toNat (dumpBytes x s)))

theorem exec_ldMemVx (hmem : s.i.toNat + x.val ≤ 0xFFF) (hlow : 0x200 ≤ s.i.toNat ∨ s.params.reservedWrite = .allow) :
    exec (.ldMemVx x) s = .next (afterDump x s) := by
  have hlen := dumpBytes_length x s
  simp only [exec, execLdMemVx, writeRange_ok (.inr (show s.i.toNat + (dumpBytes x s).length ≤ 0x1000 by omega)) hlow, orRaise_ok,
    afterDump]

theorem exec_ldMemVx_error {e : Error} (h : writeRange s.i.toNat (dumpBytes x s) s = .error e) :
    exec (.ldMemVx x) s = .next (s.setRun (.faulted e)) := by
  simp only [exec, execLdMemVx, h, orRaise_error]

/-- R247: Vr stands at I + r. -/
theorem afterDump_byteAt {r : Nibble} (h : r ≤ x) : (afterDump x s).byteAt (s.i.toNat + r.val) = s.reg r := by
  have hr : r.val < (dumpBytes x s).length := by rw [dumpBytes_length]; exact Nat.lt_succ_of_le h
  rw [afterDump, finishIndex_byteAt, State.byteAt_setMem, read_writeBytes_getElem _ _ _ hr, dumpBytes_getElem]

theorem afterDump_byteAt_outside {b : Nat} (h : b < s.i.toNat ∨ s.i.toNat + x.val < b) :
    (afterDump x s).byteAt b = s.byteAt b := by
  rw [afterDump, finishIndex_byteAt]
  exact read_writeBytes_outside (by rw [dumpBytes_length]; omega)

theorem unchangedBut_afterDump (x : Nibble) (s : State) : unchangedBut [.memory, .index] s (afterDump x s) := by
  have hindex := unchangedBut_finishIndex x (s.setMem (writeBytes s.mem s.i.toNat (dumpBytes x s)))
  exact unchangedBut_mono (unchangedBut_append (unchangedBut_setMem s _) hindex) (by split <;> simp)

/-- Settles O36: the checks of the whole range come first, and then one run of X + 1 bytes is stored at I. -/
theorem dumpStoresV0ToVx : Obligations.DumpStoresV0ToVx := by
  intro x s
  have hlen := dumpBytes_length x s
  exact ⟨decodesTo_ldMemVx x,
    fun hmem hlow => ⟨_, exec_ldMemVx hmem hlow, fun r hr => afterDump_byteAt hr, fun b hb => afterDump_byteAt_outside hb,
      finishIndex_i_toNat hmem, unchangedBut_afterDump x s⟩,
    fun hout => ⟨_, exec_ldMemVx_error (writeRange_outOfBounds (by omega) (by omega) (.inl (by omega))), tookError_raise _ s⟩,
    fun hlow hp => ⟨_, exec_ldMemVx_error (writeRange_reserved (by omega) hlow hp), tookError_raise _ s⟩⟩

/-- Settles O38: V0 and V1 stand where the next fetch reads, and nothing between the store and the fetch keeps an older copy. -/
theorem storedCodeIsFetchedNext : Obligations.StoredCodeIsFetchedNext := by
  intro x s hx hi hlow hmem
  have hpc : (afterDump x s).pc = s.pc := finishIndex_pc _ _
  have h0 : (afterDump x s).byteAt (s.pc.toNat + 0) = s.reg 0 := hi ▸ afterDump_byteAt (r := 0) (Fin.zero_le x)
  have h1 : (afterDump x s).byteAt (s.pc.toNat + 1) = s.reg 1 := hi ▸ afterDump_byteAt (r := 1) hx
  refine ⟨_, wordOfBytes (s.reg 0) (s.reg 1), exec_ldMemVx (hi ▸ hmem) (.inl (hi ▸ hlow)), hpc, ?_, wordOfBytes_toNat _ _⟩
  rw [fetch_ok_iff, hpc]
  exact ⟨⟨by omega, .inl hlow⟩, congrArg₂ wordOfBytes h0.symm h1.symm⟩

/-! ### The register load -/

/-- The state a register load leads to when its range lies in memory. -/
def afterLoad (x : Nibble) (s : State) : State :=
  finishIndex x (loadRegs s (regsUpTo x) (readBytes s.mem s.i.toNat (x.val + 1)))

theorem exec_ldVxMem (hmem : s.i.toNat + x.val ≤ 0xFFF) : exec (.ldVxMem x) s = .next (afterLoad x s) := by
  simp only [exec, execLdVxMem, readRange_ok (.inr (show s.i.toNat + (x.val + 1) ≤ 0x1000 by omega)), orRaise_ok, afterLoad]

theorem exec_ldVxMem_outside (hout : 0xFFF < s.i.toNat + x.val) : exec (.ldVxMem x) s =
    .next (s.setRun (.faulted (.outOfBounds (if s.i.toNat ≤ 0xFFF then 0x1000 else s.i.toNat)))) := by
  simp only [exec, execLdVxMem, readRange_error (show ¬(x.val + 1 = 0 ∨ s.i.toNat + (x.val + 1) ≤ 0x1000) by omega), orRaise_error]

/-- R248: Vr gets the byte at I + r. -/
theorem afterLoad_reg (x : Nibble) (s : State) (r : Nibble) :
    (afterLoad x s).reg r = if r ≤ x then s.byteAt (s.i.toNat + r.val) else s.reg r := by
  rw [afterLoad, finishIndex_reg]
  split
  · rename_i hr
    have hk : r.val < (regsUpTo x).length := by rw [regsUpTo_length]; exact Nat.lt_succ_of_le hr
    have hload := loadRegs_reg (s := s) (bs := readBytes s.mem s.i.toNat (x.val + 1)) (regsUpTo_nodup x) r.val hk
      (by rw [readBytes_length, ← regsUpTo_length x]; exact hk)
    rw [regsUpTo_getElem, readBytes_getElem] at hload
    exact hload
  · exact loadRegs_reg_of_not_mem fun hmem => absurd (mem_regsUpTo.mp hmem) ‹_›

theorem afterLoad_i_toNat (hmem : s.i.toNat + x.val ≤ 0xFFF) : (afterLoad x s).i.toNat =
    if s.params.memI = .unchanged then s.i.toNat else s.i.toNat + x.val + 1 := by
  rw [afterLoad, loadRegs_eq]
  exact finishIndex_i_toNat hmem

theorem unchangedBut_afterLoad (x : Nibble) (s : State) : unchangedBut [.regs, .index] s (afterLoad x s) :=
  unchangedBut_mono (unchangedBut_append (unchangedBut_loadRegs s _ _) (unchangedBut_finishIndex x _)) (by split <;> simp)

/-- Settles O37: the whole range is checked and read, and then the registers are written in order. -/
theorem loadFillsV0ToVx : Obligations.LoadFillsV0ToVx := fun x s =>
  ⟨decodesTo_ldVxMem x,
    fun hmem => ⟨_, exec_ldVxMem hmem, afterLoad_reg x s, afterLoad_i_toNat hmem, unchangedBut_afterLoad x s⟩,
    fun hout => ⟨_, exec_ldVxMem_outside hout, tookError_raise _ s⟩⟩

end Sys2Proof.Machine
end

section
/-! The host's calls between steps (40_cycle.md R117 to R123; 70_reset_and_hazards.md R292, R296, R297, R302): one call, every finite
sequence, every infinite one. -/

namespace Sys2Proof.Machine

variable {s t u : State} {op : HostOp} {ops : List HostOp} {f : Schedule} {run : Nat → State}

/-! ### One call -/

/-- Settles O31: the call is one `writeKey`, whose law gives every key and whose frame gives the rest. -/
theorem setKeyWritesOneKey : Obligations.SetKeyWritesOneKey := fun k p s =>
  ⟨_, rfl, fun q => State.pressed_writeKey s k q p, unchangedBut_writeKey s k p⟩

theorem runOps_cons (h : applyOp op s = .next t) : runOps (op :: ops) s = runOps ops t := by
  rw [runOps, h, andThen_next]

/-- Settles O30: one tick is one `countDown` of each timer, whatever RUN is, and the rest follows by induction on the ticks. -/
theorem ticksCountDownToZero : Obligations.TicksCountDownToZero := by
  intro n
  induction n with
  | zero => exact fun s => ⟨s, rfl, rfl, rfl, unchangedBut_refl _ s⟩
  | succ n ih =>
    intro s
    obtain ⟨t, hrun, hdt, hst, hframe⟩ := ih (tickTimers s)
    have hdt0 : (tickTimers s).dt.toNat = s.dt.toNat - 1 := countDown_toNat s.dt
    have hst0 : (tickTimers s).st.toNat = s.st.toNat - 1 := countDown_toNat s.st
    exact ⟨t, (runOps_cons rfl).trans hrun, by omega, by omega, unchangedBut_trans (unchangedBut_tickTimers s) hframe⟩

/-! ### A machine that only the timers and the keys can change -/

/-- A property that does not depend on the timers and the keys, and under which a step answers the same state, keeps every schedule
from changing anything else. -/
theorem runOps_of_step_self {P : State → Prop} (hstep : ∀ s, P s → step s = .next s)
    (hcongr : ∀ s t, unchangedBut [.delay, .sound, .keys] s t → P s → P t) (ops : List HostOp) (s : State) (h : P s) :
    ∃ t, runOps ops s = .next t ∧ unchangedBut [.delay, .sound, .keys] s t := by
  induction ops generalizing s with
  | nil => exact ⟨s, rfl, unchangedBut_refl _ s⟩
  | cons op ops ih =>
    obtain ⟨t, hop, hst⟩ : ∃ t, applyOp op s = .next t ∧ unchangedBut [.delay, .sound, .keys] s t := by
      by_cases hop : op = .step
      · exact hop ▸ ⟨s, hstep s h, unchangedBut_refl _ s⟩
      · exact applyOp_not_step hop s
    obtain ⟨u, hrun, htu⟩ := ih t (hcongr s t hst h)
    exact ⟨u, (runOps_cons hop).trans hrun, unchangedBut_trans hst htu⟩

theorem step_runEnded (h : runEnded s) : step s = .next s := by
  rcases h with h | ⟨e, he⟩
  · exact step_haltedAtPc h
  · exact step_faulted he

theorem runOps_runEnded (h : runEnded s) (ops : List HostOp) :
    ∃ t, runOps ops s = .next t ∧ unchangedBut [.delay, .sound, .keys] s t :=
  runOps_of_step_self (fun _ => step_runEnded) (fun _ _ hst => (runEnded_congr hst).mpr) ops s h

/-- Settles O42: Faulted is an end of a run, and RUN is not among what the host's other calls change. -/
theorem faultedIsAbsorbing : Obligations.FaultedIsAbsorbing := by
  intro e s ops he
  obtain ⟨t, hrun, hst⟩ := runOps_runEnded (.inr ⟨e, he⟩) ops
  exact ⟨t, hrun, (hst .run (by decide)).trans he, hst⟩

/-! ### The end of a run (R302) -/

theorem runOps_steps_of_runEnded (h : runEnded s) (n : Nat) : runOps (List.replicate n .step) s = .next s := by
  induction n with
  | zero => rfl
  | succ n ih => exact (runOps_cons (op := .step) (step_runEnded h)).trans ih

theorem endsAfter_unique {m n : Nat} (hm : endsAfter f m s t) (hn : endsAfter f n s u) : m = n ∧ t = u := by
  obtain ⟨hmt, htend, htfirst⟩ := hm
  obtain ⟨hnu, huend, hufirst⟩ := hn
  have heq : m = n := by
    rcases Nat.lt_trichotomy m n with h | h | h
    · exact absurd htend (hufirst m h t hmt)
    · exact h
    · exact absurd huend (htfirst n h u hnu)
  subst heq
  exact ⟨rfl, Host.Outcome.next.inj (hmt.symm.trans hnu)⟩

/-- A call other than a step neither ends a run nor un-ends it. -/
theorem endsAfter_by_step {n : Nat} (h : endsAfter f (n + 1) s t) : f n = .step := by
  obtain ⟨hrun, hend, hfirst⟩ := h
  obtain ⟨u, hu, hop⟩ := andThen_eq_next.mp hrun
  by_contra hne
  obtain ⟨t', ht', hframe⟩ := applyOp_not_step hne u
  obtain rfl := Host.Outcome.next.inj (hop.symm.trans ht')
  exact hfirst n (Nat.lt_succ_self n) u hu ((runEnded_congr hframe).mp hend)

/-- Settles O44: an end is a state whose step repeats it, and what the host's other calls change is no part of being one. -/
theorem endOfRunIsStableAndUnique : Obligations.EndOfRunIsStableAndUnique := by
  refine ⟨fun s ops h => ?_, fun s h n => runOps_steps_of_runEnded h n, fun _ _ _ _ _ _ => endsAfter_unique,
    fun _ _ _ _ => endsAfter_by_step⟩
  obtain ⟨t, hrun, hst⟩ := runOps_runEnded h ops
  exact ⟨t, hrun, (runEnded_congr hst).mpr h, (haltedAtPc_congr hst).symm, hst⟩

/-! ### The invariant under every schedule -/

/-- The invariant speaks of no timer and no key. -/
theorem inv_congr (hm : t.mem = s.mem) (hf : unchangedBut [.delay, .sound, .keys] s t) (h : Inv s) : Inv t := by
  have hpc : t.pc = s.pc := hf .pc (by decide)
  have hrun : t.run = s.run := hf .run (by decide)
  have hparams : t.params = s.params := hf .params (by decide)
  obtain ⟨hsp, hslot⟩ : t.sp = s.sp ∧ ∀ j, t.slot j = s.slot j := hf .stack (by decide)
  exact {
    mem_wf := by rw [hm]; exact h.mem_wf
    sp_le := by rw [hsp]; exact h.sp_le
    slot_le := fun j hj => by rw [hslot]; exact h.slot_le j (by rwa [hsp] at hj)
    pc_le := by rw [hpc]; exact h.pc_le
    wait_pc := fun x hx => by rw [hparams, hpc]; exact h.wait_pc x (by rwa [hrun] at hx)
    fault_of_step := fun e he => h.fault_of_step e (by rwa [hrun] at he)
    params_wf := by rw [hparams]; exact h.params_wf }

theorem applyOp_inv (h : Inv s) (hop : applyOp op s = .next t) : Inv t := by
  by_cases hne : op = .step
  · subst hne; exact step_inv h hop
  · obtain ⟨t', ht', hframe⟩ := applyOp_not_step hne s
    obtain rfl := Host.Outcome.next.inj (hop.symm.trans ht')
    refine inv_congr ?_ hframe h
    cases op with
    | step => exact absurd rfl hne
    | _ => cases hop; rfl

theorem applyOp_answers (h : Inv s) (op : HostOp) : ∃ t, applyOp op s = .next t := by
  cases op with
  | step => exact step_answers h
  | _ => exact ⟨_, rfl⟩

theorem runOps_inv (h : Inv s) (hrun : runOps ops s = .next t) : Inv t := by
  induction ops generalizing s with
  | nil => exact Host.Outcome.next.inj hrun ▸ h
  | cons op ops ih =>
    obtain ⟨u, hop, hrest⟩ := andThen_eq_next.mp hrun
    exact ih (applyOp_inv h hop) hrest

theorem construct_inv {p : Params} {font : List Byte} (hp : p.wf) (hfont : font.length = 80) (init : Nat → Byte) :
    Inv (construct p font init) where
  mem_wf := construct_mem_wf hp hfont
  sp_le := Nat.zero_le 16
  slot_le := nofun
  pc_le := show (0x200 : Word).toNat ≤ 0x10FE by decide
  wait_pc := nofun
  fault_of_step := nofun
  params_wf := hp

/-- Settles O51: the reset state is the one constructed with this hardware's parameters and font. -/
theorem invAtReset : Obligations.InvAtReset :=
  (congrArg Inv construct_hardware).mp (construct_inv hardware_wf fontBytes_length _)

theorem loadProgram_inv {rom : List Byte} (h : Inv s) (hload : loadProgram rom s = .ok t) : Inv t := by
  unfold loadProgram at hload
  split at hload
  · cases hload
  · obtain rfl := Except.ok.inj hload
    exact { h with mem_wf := writeBytes_wf h.mem_wf (by omega) }

/-- Settles O53: a boot stores inside memory only, and then the invariant goes from call to call. -/
theorem bootAndScheduleKeepInv : Obligations.BootAndScheduleKeepInv :=
  ⟨fun _ _ init _ _ hp hfont hboot => loadProgram_inv (construct_inv hp hfont init) hboot, fun _ _ _ => runOps_inv⟩

/-! ### Infinite schedules -/

theorem runSchedule_answers (h : Inv s) (f : Schedule) (n : Nat) : ∃ t, runSchedule f s n = .next t ∧ Inv t := by
  induction n with
  | zero => exact ⟨s, rfl, h⟩
  | succ n ih =>
    obtain ⟨t, ht, hinv⟩ := ih
    obtain ⟨u, hu⟩ := applyOp_answers hinv (f n)
    exact ⟨u, andThen_eq_next.mpr ⟨t, ht, hu⟩, applyOp_inv hinv hu⟩

/-- Settles O59: the invariant makes every call answer, so the run is where the calls so far have come. -/
theorem infiniteSchedulesRun : Obligations.InfiniteSchedulesRun := by
  intro f s h
  choose run hrun hinv using runSchedule_answers h f
  refine ⟨run, (Host.Outcome.next.inj (hrun 0)).symm, fun n => ?_, fun n => ⟨hinv n, hrun n, ?_⟩⟩
  · obtain ⟨t, ht, hop⟩ := andThen_eq_next.mp (hrun (n + 1))
    rwa [Host.Outcome.next.inj (ht.symm.trans (hrun n))] at hop
  · rw [← runSchedule_eq_runOps]; exact hrun n

/-! ### A key wait along an infinite run (R296) -/

theorem pressed_eq_false_of_leastPressed (h : leastPressed s = none) (k : Nibble) : s.pressed k = false := by
  simpa using List.find?_eq_none.mp h k (List.mem_finRange k)

/-- R117: while no step meets a pressed key, only the timers and the keys change. -/
theorem wait_unchanged {x : Nibble} (hrun : infiniteRun f run) (hwait : (run 0).run = .waitingForKey x) {n : Nat}
    (hquiet : ∀ m, m < n → f m = .step → ∀ k, (run m).pressed k = false) :
    unchangedBut [.delay, .sound, .keys] (run 0) (run n) := by
  induction n with
  | zero => exact unchangedBut_refl _ _
  | succ n ih =>
    have hn := ih fun m hm => hquiet m (by omega)
    have hop := hrun n
    by_cases hf : f n = .step
    · have hwn : (run n).run = .waitingForKey x := (hn .run (by decide)).trans hwait
      have hpoll : poll x (run n) = run n := poll_none (leastPressed_none (hquiet n (Nat.lt_succ_self n) hf))
      rw [hf, applyOp, step_waiting hwn, hpoll] at hop
      exact Host.Outcome.next.inj hop ▸ hn
    · obtain ⟨t, ht, hframe⟩ := applyOp_not_step hf (run n)
      exact Host.Outcome.next.inj (ht.symm.trans hop) ▸ unchangedBut_trans hn hframe

/-- The first step that meets a pressed key completes the wait. -/
theorem wait_ends {x : Nibble} (hrun : infiniteRun f run) (hwait : (run 0).run = .waitingForKey x)
    (hkey : ∃ m, f m = .step ∧ ∃ k, (run m).pressed k = true) :
    ∃ n, ∃ k : Nibble, (run n).run = .running ∧ (run n).pc = (run 0).pc + 2 ∧ ((run n).reg x).toNat = k.val := by
  classical
  obtain ⟨m, ⟨hf, j, hj⟩, hfirst⟩ : ∃ m, (f m = .step ∧ ∃ k, (run m).pressed k = true) ∧
      ∀ i, i < m → ¬(f i = .step ∧ ∃ k, (run i).pressed k = true) :=
    ⟨Nat.find hkey, Nat.find_spec hkey, fun _ => Nat.find_min hkey⟩
  have hsame := wait_unchanged (n := m) hrun hwait fun i hi hfi k => by
    simpa using fun hk => hfirst i hi ⟨hfi, k, hk⟩
  have hpc : (run m).pc = (run 0).pc := hsame .pc (by decide)
  have hop := hrun m
  rw [hf, applyOp, step_waiting ((hsame .run (by decide)).trans hwait)] at hop
  rcases poll_cases x (run m) with ⟨hnone, -⟩ | ⟨k, -, hpoll⟩
  · rw [pressed_eq_false_of_leastPressed hnone j] at hj; cases hj
  · rw [hpoll] at hop
    rw [← hpc]
    refine ⟨m + 1, k, ?_⟩
    rw [← Host.Outcome.next.inj hop]
    refine ⟨rfl, rfl, ?_⟩
    rw [State.setRun_reg, State.setPc_reg, State.reg_setReg, if_pos rfl]
    exact keyByte_toNat k

/-! ### The delay timer along an infinite run (R297) -/

section
variable (hrun : infiniteRun f run) (hsteps : ∀ n, f n = .step → (run (n + 1)).dt = (run n).dt)
include hrun

theorem dt_after_tick {n : Nat} (hf : f n = .tickTimers) : (run (n + 1)).dt.toNat = (run n).dt.toNat - 1 := by
  have hop := hrun n
  rw [hf] at hop
  rw [← Host.Outcome.next.inj hop]
  exact countDown_toNat _

include hsteps

theorem dt_antitone : Antitone fun n => (run n).dt.toNat := by
  refine antitone_nat_of_succ_le fun n => ?_
  have hop := hrun n
  cases hf : f n with
  | step => rw [hsteps n hf]
  | tickTimers => rw [dt_after_tick hrun hf]; omega
  | setKey k p => rw [hf] at hop; rw [← Host.Outcome.next.inj hop]; rfl
  | read port => rw [hf] at hop; rw [← Host.Outcome.next.inj hop]

theorem dt_reaches_zero (hticks : ticksForever f) (d n : Nat) (hd : (run n).dt.toNat ≤ d) : ∃ m, (run m).dt.toNat = 0 := by
  induction d generalizing n with
  | zero => exact ⟨n, Nat.le_zero.mp hd⟩
  | succ d ih =>
    obtain ⟨m, hnm, hf⟩ := hticks n
    have hle : (run m).dt.toNat ≤ (run n).dt.toNat := dt_antitone hrun hsteps hnm
    exact ih (m + 1) (by rw [dt_after_tick hrun hf]; omega)

end

/-- Settles O60: the first step that meets a key ends the wait, and DT never rises and falls with every tick. -/
theorem progressIsTheHosts : Obligations.ProgressIsTheHosts := by
  refine fun f run hrun => ⟨fun x hwait => ⟨fun hsteps ⟨n₀, hkeys⟩ => ?_, fun hquiet n => ?_⟩, fun hticks hsteps => ?_⟩
  · obtain ⟨m, hm, hf⟩ := hsteps n₀
    exact wait_ends hrun hwait ⟨m, hf, hkeys m hm⟩
  · refine wait_unchanged hrun hwait fun m _ hf => ?_
    rcases hquiet with hno | hno
    · exact absurd hf (hno m)
    · exact hno m
  · obtain ⟨n, hn⟩ := dt_reaches_zero hrun hsteps hticks _ 0 le_rfl
    refine ⟨n, fun m hm => BitVec.eq_of_toNat_eq (Nat.le_zero.mp ?_)⟩
    exact (dt_antitone hrun hsteps hm).trans hn.le

end Sys2Proof.Machine
end
